-- ==== Sys2Proof/Word.lean ====
section
/-! DEFINITION. The words of PKTCODEC: a byte, a 16-bit value and a byte sequence (R11, R12). -/

namespace Sys2Proof

/-- R11: a byte is 8 bits, unsigned. -/
abbrev Byte := BitVec 8

/-- R11: `u16`, an unsigned 16-bit value. -/
abbrev U16 := BitVec 16

/-- R12: a byte sequence, first byte first; indices and lengths are natural numbers. -/
abbrev Bytes := List Byte

end Sys2Proof
end

