-- ==== Sys2Proof/Syntax.lean ====
section
/-! DEFINITION. The eleven operations (R71) and the form in which an agent presents one (R69). -/

namespace Sys2Proof

/-- One constructor per row of the operation table (R71), in the table's order. The length operands
`plen` and `clen` are not written: they are the number of bytes of the sequence (R75). -/
inductive Instr where
  /-- `CRC.CLR`, R93. -/
  | crcClr
  /-- `CRC.UPD b`, R94. -/
  | crcUpd (b : Byte)
  /-- `CRC.RD`, R95. -/
  | crcRd
  /-- `XOR.CLR`, R109. -/
  | xorClr
  /-- `XOR.BYTE b`, R110. -/
  | xorByte (b : Byte)
  /-- `XOR.RD`, R111. -/
  | xorRd
  /-- `ENC type, {payload}`, R126. -/
  | enc (type : U16) (payload : Bytes)
  /-- `ACC.CLR`, R135. -/
  | accClr
  /-- `ACC.PUSH {chunk}`, R136. -/
  | accPush (chunk : Bytes)
  /-- `ACC.LEN`, R137. -/
  | accLen
  /-- `DEC`, R150. -/
  | dec
deriving DecidableEq, Repr

/-- R70: an operand value that follows the command word in format S. -/
inductive Operand where
  /-- A 16-bit value. -/
  | u16 (v : U16)
  /-- A byte sequence. -/
  | bytes (s : Bytes)
deriving DecidableEq, Repr

/-- R69: what an agent presents, a 16-bit command word together with operand values. How they
travel is not specified and nothing here depends on it (D1). -/
structure Command where
  cw : U16
  operands : List Operand
deriving DecidableEq, Repr

end Sys2Proof
end

