-- ==== Sys2Proof/Machine/State.lean ====
section
/-! DEFINITION. What an operation returns (R32, R73, R74), what is presented to the block (R69,
R190), and the state (R20, R33). -/

namespace Sys2Proof.Machine

/-- R73: the eight statuses. Their 3-bit codes are `Status.code` (Machine/Flags.lean). -/
inductive Status where
  | ok
  | noMessage
  | framingError
  | corruptCrc
  | corruptShort
  | badOperand
  | accFull
  | illegalOp
deriving DecidableEq, Repr

/-- R32: a Message as `DEC` returns it. -/
structure Message where
  type : U16
  declaredLen : U16
  raw : Bytes
  payload : Bytes
deriving DecidableEq, Repr

/-- R71: the result values an operation can have. -/
inductive Value where
  /-- `CRC.RD`: a u16. -/
  | u16 (v : U16)
  /-- `XOR.BYTE`: a byte. -/
  | byte (b : Byte)
  /-- `XOR.RD`: a 4-bit index. -/
  | index (k : BitVec 4)
  /-- `ENC`: a packet. -/
  | packet (p : Bytes)
  /-- `ACC.LEN`: a natural number. -/
  | length (n : Nat)
  /-- `DEC`: a Message. -/
  | message (m : Message)
deriving DecidableEq, Repr

/-- R74: the result record of an operation, `(status, value)`. -/
structure Result where
  status : Status
  value : Option Value
deriving DecidableEq, Repr

/-- R50, R186: who presents operations. Two roles, any number of agents in each; the role is a
usage discipline (R182), so nothing depends on it. -/
inductive Agent where
  | writer (n : Nat)
  | host (n : Nat)
deriving DecidableEq, Repr

/-- What reaches the block from outside: an operation presented by an agent (R69) or the reset
event (R190). -/
inductive Event where
  | operation (agent : Agent) (cmd : Command)
  | reset
deriving DecidableEq, Repr

/-- The state. `crc`, `kidx` and `acc` are the whole architectural state (R20). The other three
fields are the transaction-level interface (R69, R74), held as plain data so that a step is a
function of the state; no operation reads them (notes/assumptions/1.md). -/
structure State where
  /-- R21: the running CRC-16 of U_CRC. -/
  crc : U16
  /-- R22: the index into `KEY` that the next `XOR.BYTE` uses. -/
  kidx : BitVec 4
  /-- R23: the inbound accumulator, `acc[0]` the oldest byte. -/
  acc : Bytes
  /-- R49, R204: what is presented, in the order in which the block performs it. -/
  presented : List Event
  /-- R74: the agent whose operation is being performed. -/
  presenter : Agent
  /-- R74: the result records returned so far, each with the agent it was returned to. -/
  returned : List (Agent × Result)
deriving DecidableEq, Repr

/-- The reasons the machine stops with a fault: none. Every operation on every state and operand has
one result (93_implementation_defined.md, end of part 1); what a processor would trap on is a
status (R170). -/
inductive Fault where
deriving DecidableEq, Repr

/-- The reasons a step is refused. -/
inductive Refusal where
  /-- Raised by an arm of `exec` that has no meaning yet. Safe. -/
  | notModelled (mnemonic : String)
  /-- Raised by `step` when the presented command word is legal and the operand values are not those
  its format names (R69, R70): that is no presentation of an operation. Safe. -/
  | operandsNotOfFormat (cw : U16)
deriving DecidableEq, Repr

/-- How a step of this machine ends. -/
abbrev Answer := Host.Outcome State Fault Refusal

/-- R33, R190: `CRC = 0x0000`, `KIDX = 0`, `ACC = []`. The three interface fields are the model's own
(notes/assumptions/2.md): nothing presented, nothing returned. -/
def State.reset : State :=
  { crc := 0x0000#16, kidx := 0#4, acc := [], presented := [], presenter := .host 0, returned := [] }

end Sys2Proof.Machine
end

