-- ==== Sys2Proof/Machine/Flags.lean ====
section
/-! DEFINITION. The block has no flags, condition codes or predicates (R29). What stands in their
place is the 3-bit status an operation returns (R73), a returned value and not state; this file
gives its codes. -/

namespace Sys2Proof.Machine

/-- R73: the 3-bit code of a status. -/
def Status.code : Status → BitVec 3
  | .ok => 0#3
  | .noMessage => 1#3
  | .framingError => 2#3
  | .corruptCrc => 3#3
  | .corruptShort => 4#3
  | .badOperand => 5#3
  | .accFull => 6#3
  | .illegalOp => 7#3

end Sys2Proof.Machine
end

