-- ==== Sys2Proof/Config.lean ====
section
/-! DEFINITION. The implementation parameters of R6 to R9. None is state and none changes while the
block runs (R20). Every definition of the machine that depends on a parameter takes a `Config`, so
that a claim can be made for every value of it (R112). The configuration of this hardware itself is
`Sys2Proof.Machine.hardware` (Machine/Hardware.lean); its two open parameters are the opaque
constants below. -/

namespace Sys2Proof

/-- The configuration of a block: R6 `KEY`, R7 `CRC_CHECK`, R8 `ACC_CAP`, R9 `MAX_PAYLOAD`. -/
structure Config where
  /-- R6: the obfuscation key table, 16 bytes, read-only. -/
  key : Vector Byte 16
  /-- R7: whether Decode compares the CRC. -/
  crcCheck : Bool
  /-- R8: the capacity of the accumulator in bytes, or `none` for unbounded. -/
  accCap : Option Nat
  /-- R9: the greatest payload length the serializer accepts. -/
  maxPayload : Nat
deriving DecidableEq, Repr

/-- R6, R112, D5: `KEY` is OPEN. No byte of it can be proved (notes/assumptions/3.md). -/
opaque Config.openKey : Vector Byte 16

/-- R8, D7: `ACC_CAP` is OPEN, a natural number or unbounded (notes/assumptions/4.md). -/
opaque Config.openAccCap : Option Nat

end Sys2Proof
end

