-- ==== Sys2Proof/Machine/Hardware.lean ====
section
/-! DEFINITION. The configuration this hardware takes (R6 to R9 and the table at the end of
92_eei_decisions.md). -/

namespace Sys2Proof.Machine

/-- `KEY` and `ACC_CAP` open (D5, D7), `CRC_CHECK = true` (R7, D6), `MAX_PAYLOAD = 65530` (R9, D18). -/
def hardware : Config :=
  { key := Config.openKey, crcCheck := true, accCap := Config.openAccCap, maxPayload := 65530 }

end Sys2Proof.Machine
end

