-- ==== Sys2Proof/Machine/Operands.lean ====
section
/-! DEFINITION. The constants of the wire format (R10) and the byte-order and slicing helpers (R11 to
R13) in which fields are put together and taken apart. The operand fields of the command word are
in Decode.lean. -/

namespace Sys2Proof.Machine

/-- R10, R61: the header marker, first byte. -/
def HDR0 : Byte := 0xAB#8
/-- R10, R61: the header marker, second byte. -/
def HDR1 : Byte := 0xCD#8
/-- R10, R65: the trailer marker, first byte. -/
def TRL0 : Byte := 0xDC#8
/-- R10, R65: the trailer marker, second byte. -/
def TRL1 : Byte := 0xBA#8
/-- R10: the pad byte. -/
def PAD : Byte := 0x00#8

/-- R11: `lo(v) = v[7:0]`. -/
def lo (v : U16) : Byte := v.extractLsb' 0 8

/-- R11: `hi(v) = v[15:8]`. -/
def hi (v : U16) : Byte := v.extractLsb' 8 8

/-- R13: `le16(b0, b1) = b0 | (b1 << 8)`. -/
def le16 (b0 b1 : Byte) : U16 := b0.setWidth 16 ||| (b1.setWidth 16 <<< 8)

/-- R13: `bytes_le16(v) = [lo(v), hi(v)]`. -/
def bytesLe16 (v : U16) : Bytes := [lo v, hi v]

/-- `s[i]`. Read only at `i < len(s)` (R12, R14); beyond the end, where no rule reads, it is 0
(notes/assumptions/10.md). -/
def byteAt (s : Bytes) (i : Nat) : Byte := s.getD i 0x00#8

/-- R13: `le16(s, i) = le16(s[i], s[i + 1])`. -/
def le16At (s : Bytes) (i : Nat) : U16 := le16 (byteAt s i) (byteAt s (i + 1))

/-- R12: `s[i:j]`, half-open, empty when `i >= j`. -/
def slice (s : Bytes) (i j : Nat) : Bytes := (s.take j).drop i

end Sys2Proof.Machine
end

