-- ==== Sys2Proof/Machine/Ops.lean ====
section
/-! DEFINITION. The shared operations over registers, accumulator and result records. In place of a
processor's trap entry stands `State.raise` (R170): the operation ends with a non-`OK` status and
nothing else happens. In place of a trap return there is nothing (R181). -/

namespace Sys2Proof.Machine

/-! Result records, R74. -/

/-- `(OK, none)`. -/
def Result.done : Result := ⟨.ok, none⟩

/-- `(OK, v)`. -/
def Result.okValue (v : Value) : Result := ⟨.ok, some v⟩

/-- R74: a non-`OK` status comes with no value. -/
def Result.failed (st : Status) : Result := ⟨st, none⟩

/-! Registers and accumulator. -/

/-- R14: `x[CRC] <- v`. -/
def State.setCrc (s : State) (v : U16) : State := { s with crc := v }

/-- R14: `x[KIDX] <- v`. -/
def State.setKidx (s : State) (v : BitVec 4) : State := { s with kidx := v }

/-- R14: `ACC <- a`. -/
def State.setAcc (s : State) (a : Bytes) : State := { s with acc := a }

/-- R47: append, `ACC <- ACC ++ chunk`. -/
def State.append (s : State) (chunk : Bytes) : State := s.setAcc (s.acc ++ chunk)

/-- R48: front-consume, `a[k:]`. -/
def consume (a : Bytes) (k : Nat) : Bytes := a.drop k

/-- R25: `ACC_LEN = len(ACC)`. -/
abbrev State.accLen (s : State) : Nat := s.acc.length

/-- R40: the byte of `ACC` at an index, `none` where there is none. -/
def State.readByte (s : State) (i : Nat) : Option Byte := s.acc[i]?

/-- R8: whether `n` bytes fit in the accumulator. -/
def withinCap (cfg : Config) (n : Nat) : Bool :=
  match cfg.accCap with
  | none => true
  | some cap => decide (n ≤ cap)

/-- R20, R23: the accumulator holds at most `ACC_CAP` bytes. It is a sequence (R40): every index
below its length holds a byte and no other index exists, so equal accumulators are equal lists and
this bound is all there is to its form (notes/assumptions/9.md). -/
def Memory.wf (cfg : Config) (a : Bytes) : Bool := withinCap cfg a.length

/-- The accumulator as (address, byte) pairs: one for each index of R40, in rising order. -/
def Memory.cells (a : Bytes) : List Host.Cell := a.zipIdx.map fun p => (p.2, p.1)

/-! The end of an operation. -/

/-- R74: the result record goes to the agent that presented the operation. -/
def State.reply (s : State) (r : Result) : State :=
  { s with returned := s.returned ++ [(s.presenter, r)] }

/-- R14, R170: `raise <Outcome>()` ends the operation with that status and no value; no control is
transferred, nothing is saved, and the block is ready for the next operation. -/
def State.raise (s : State) (st : Status) : State := s.reply (Result.failed st)

/-- R190: the state change of the reset event, the same as `CRC.CLR`, `XOR.CLR` and `ACC.CLR`
together. What is presented and what was returned lie outside the block and stay. -/
def State.resetBlock (s : State) : State := ((s.setCrc 0x0000#16).setKidx 0#4).setAcc []

end Sys2Proof.Machine
end

