-- ==== Sys2Proof/Machine/Crc.lean ====
section
/-! DEFINITION. U_CRC (40_crc16.md): the function `crc16` and the operations `CRC.CLR`, `CRC.UPD`,
`CRC.RD`. -/

namespace Sys2Proof.Machine

/-- R10: the generator polynomial. -/
def crcPoly : U16 := 0x1021#16

/-- R90: one shift step, testing bit 15; the left shift drops the bit shifted out. -/
def crcShift (c : U16) : U16 := if c.getLsbD 15 then (c <<< 1) ^^^ crcPoly else c <<< 1

/-- R90: `n` shift steps. -/
def crcShifts : Nat → U16 → U16
  | 0, c => c
  | n + 1, c => crcShifts n (crcShift c)

/-- R90: `crc16_step(c, b)`, the byte into bits 15..8 and eight shift steps. -/
def crc16Step (c : U16) (b : Byte) : U16 := crcShifts 8 (c ^^^ (b.setWidth 16 <<< 8))

/-- R91: `crc16(s)`, from the initial value 0 over every byte in index order, no final XOR. -/
def crc16 (s : Bytes) : U16 := s.foldl crc16Step 0x0000#16

/-- R93: `x[CRC] <- 0x0000; return (OK, none)`. -/
def afterCrcClr (s : State) : State := (s.setCrc 0x0000#16).reply Result.done

/-- R94: `x[CRC] <- crc16_step(x[CRC], b); return (OK, none)`. -/
def afterCrcUpd (b : Byte) (s : State) : State := (s.setCrc (crc16Step s.crc b)).reply Result.done

/-- R95: `return (OK, x[CRC])`. -/
def afterCrcRd (s : State) : State := s.reply (Result.okValue (.u16 s.crc))

/-- `CRC.CLR`, R93. -/
def execCrcClr (s : State) : Answer := .next (afterCrcClr s)

/-- `CRC.UPD b`, R94. -/
def execCrcUpd (b : Byte) (s : State) : Answer := .next (afterCrcUpd b s)

/-- `CRC.RD`, R95. -/
def execCrcRd (s : State) : Answer := .next (afterCrcRd s)

end Sys2Proof.Machine
end

