-- ==== Sys2Proof/Machine/Xor.lean ====
section
/-! DEFINITION. U_XOR (41_xor_obfuscation.md): the function `obf` and the operations `XOR.CLR`,
`XOR.BYTE`, `XOR.RD`. -/

namespace Sys2Proof.Machine

/-- R105: `KEY[i mod 16]`. -/
def keyByte (cfg : Config) (i : Nat) : Byte := cfg.key[i % 16]'(Nat.mod_lt i (by decide))

/-- R105 with the key index started at `i` instead of 0. -/
def obfFrom (cfg : Config) : Nat → Bytes → Bytes
  | _, [] => []
  | i, b :: s => (b ^^^ keyByte cfg i) :: obfFrom cfg (i + 1) s

/-- R105, R106: `obf(s)`, byte `i` XORed with `KEY[i mod 16]`, the index counted from the start of
the sequence. -/
def obf (cfg : Config) (s : Bytes) : Bytes := obfFrom cfg 0 s

/-- R109: `x[KIDX] <- 0; return (OK, none)`. -/
def afterXorClr (s : State) : State := (s.setKidx 0#4).reply Result.done

/-- R110: `v <- b ^ KEY[x[KIDX]]; x[KIDX] <- (x[KIDX] + 1) mod 16; return (OK, v)`. The 4-bit sum
wraps from 15 to 0. -/
def afterXorByte (cfg : Config) (b : Byte) (s : State) : State :=
  (s.setKidx (s.kidx + 1#4)).reply (Result.okValue (.byte (b ^^^ keyByte cfg s.kidx.toNat)))

/-- R111: `return (OK, x[KIDX])`. -/
def afterXorRd (s : State) : State := s.reply (Result.okValue (.index s.kidx))

/-- `XOR.CLR`, R109. -/
def execXorClr (s : State) : Answer := .next (afterXorClr s)

/-- `XOR.BYTE b`, R110. -/
def execXorByte (b : Byte) (s : State) : Answer := .next (afterXorByte hardware b s)

/-- `XOR.RD`, R111. -/
def execXorRd (s : State) : Answer := .next (afterXorRd s)

end Sys2Proof.Machine
end

