-- ==== Sys2Proof/Machine/Parser.lean ====
section
/-! DEFINITION. The accumulator operations and the parser of U_FRM (43_parser.md): `ACC.CLR`,
`ACC.PUSH`, `ACC.LEN`, the steps R139 to R149 of Decode and the operation `DEC`, R150. The parser
uses the functions `crc16` and `obf` and touches no register (R2, D21). -/

namespace Sys2Proof.Machine

/-! The accumulator operations. -/

/-- R135: `ACC <- []; return (OK, none)`. -/
def afterAccClr (s : State) : State := (s.setAcc []).reply Result.done

/-- R136: `if len(ACC) + clen > ACC_CAP then raise ACC_FULL(); ACC <- ACC ++ chunk`. -/
def afterAccPush (cfg : Config) (chunk : Bytes) (s : State) : State :=
  if withinCap cfg (s.acc.length + chunk.length) then (s.append chunk).reply Result.done
  else s.raise .accFull

/-- R137: `return (OK, len(ACC))`. -/
def afterAccLen (s : State) : State := s.reply (Result.okValue (.length s.accLen))

/-! The steps of Decode. -/

/-- R139: the least index at which the header marker stands, on bytes as received. -/
def findMarker : Bytes → Option Nat
  | b0 :: b1 :: rest =>
    if b0 = HDR0 ∧ b1 = HDR1 then some 0 else (findMarker (b1 :: rest)).map (· + 1)
  | [_] => none
  | [] => none

/-- R140: what is kept of a buffer without a marker, a trailing `0xAB` or nothing. -/
def retained (a : Bytes) : Bytes := if a.getLast? = some HDR0 then [HDR0] else []

/-- R144: resynchronisation, dropping everything through the two bytes of the marker at `p`. -/
def resync (a : Bytes) (p : Nat) : Bytes := consume a (p + 2)

/-- R142: the length field of the frame whose marker is at `p`, as a natural number. -/
def msgLenAt (a : Bytes) (p : Nat) : Nat := (le16At a (p + 2)).toNat

/-- R144: whether the trailer marker stands at `t`. -/
def trailerAt (a : Bytes) (t : Nat) : Bool := byteAt a t = TRL0 && byteAt a (t + 1) = TRL1

/-- R148: the Message in a body of `msgLen` bytes; `payload` is `raw` cut to the declared length. -/
def messageOf (body : Bytes) : Message :=
  let declaredLen := le16At body 2
  let raw := body.drop 4
  { type := le16At body 0, declaredLen, raw, payload := raw.take (min declaredLen.toNat raw.length) }

/-- R145 to R149: a frame at `p` whose trailer has matched; the record and the new accumulator. -/
def openFrame (cfg : Config) (a : Bytes) (p : Nat) : Result × Bytes :=
  let msgLen := msgLenAt a p
  let r := obf cfg (slice a (p + 4) (p + 6 + msgLen))
  if msgLen < 4 then (Result.failed .corruptShort, resync a p) else
  let body := slice r 0 msgLen
  let crcField := le16At r msgLen
  if cfg.crcCheck ∧ crc16 body ≠ crcField then (Result.failed .corruptCrc, resync a p) else
  (Result.okValue (.message (messageOf body)), consume a (p + 8 + msgLen))

/-- R150: the record `DEC` returns and the accumulator it leaves, the tests in the normative order
(R178). -/
def parse (cfg : Config) (a : Bytes) : Result × Bytes :=
  match findMarker a with
  | none => (Result.failed .noMessage, retained a)
  | some p =>
    if a.length - p < 8 then (Result.failed .noMessage, a) else
    let t := p + 6 + msgLenAt a p
    if a.length < t + 2 then (Result.failed .noMessage, a) else
    if trailerAt a t then openFrame cfg a p else (Result.failed .framingError, resync a p)

/-- R150: state written, `ACC` only. -/
def afterDec (cfg : Config) (s : State) : State :=
  (s.setAcc (parse cfg s.acc).2).reply (parse cfg s.acc).1

/-- `ACC.CLR`, R135. -/
def execAccClr (s : State) : Answer := .next (afterAccClr s)

/-- `ACC.PUSH {chunk}`, R136. -/
def execAccPush (chunk : Bytes) (s : State) : Answer := .next (afterAccPush hardware chunk s)

/-- `ACC.LEN`, R137. -/
def execAccLen (s : State) : Answer := .next (afterAccLen s)

/-- `DEC`, R150. -/
def execDec (s : State) : Answer := .next (afterDec hardware s)

end Sys2Proof.Machine
end

