-- ==== Sys2Proof/Machine/Serializer.lean ====
section
/-! DEFINITION. The serializer of U_FRM (42_serializer.md): the steps R121 to R125 and the operation
`ENC`, R126. It uses the functions `crc16` and `obf` and touches no register (R2, D21). -/

namespace Sys2Proof.Machine

/-- R121: `dataLen = 4 + plen`. -/
def dataLenOf (plen : Nat) : Nat := 4 + plen

/-- R121: `msgLen = dataLen + (dataLen mod 2)`. -/
def msgLenOf (plen : Nat) : Nat := dataLenOf plen + dataLenOf plen % 2

/-- R121: one zero byte when `dataLen` is odd. -/
def padOf (plen : Nat) : Bytes := if dataLenOf plen % 2 = 1 then [PAD] else []

/-- R63, R122: the body; `declaredLen` is the length before padding (D3). -/
def bodyOf (type : U16) (payload : Bytes) : Bytes :=
  bytesLe16 type ++ bytesLe16 (BitVec.ofNat 16 payload.length) ++ payload ++ padOf payload.length

/-- R124: the obfuscated region, body and CRC field. -/
def regionOf (cfg : Config) (type : U16) (payload : Bytes) : Bytes :=
  obf cfg (bodyOf type payload ++ bytesLe16 (crc16 (bodyOf type payload)))

/-- R125: the packet. -/
def packetOf (cfg : Config) (type : U16) (payload : Bytes) : Bytes :=
  [HDR0, HDR1] ++ bytesLe16 (BitVec.ofNat 16 (msgLenOf payload.length)) ++
    regionOf cfg type payload ++ [TRL0, TRL1]

/-- R126, R127: `BAD_OPERAND` when `plen > MAX_PAYLOAD`, otherwise `OK` with the packet. -/
def serialize (cfg : Config) (type : U16) (payload : Bytes) : Result :=
  if payload.length > cfg.maxPayload then Result.failed .badOperand
  else Result.okValue (.packet (packetOf cfg type payload))

/-- R126: no state written. -/
def afterEnc (cfg : Config) (type : U16) (payload : Bytes) (s : State) : State :=
  s.reply (serialize cfg type payload)

/-- `ENC type, {payload}`, R126. -/
def execEnc (type : U16) (payload : Bytes) (s : State) : Answer :=
  .next (afterEnc hardware type payload s)

end Sys2Proof.Machine
end

