-- ==== Sys2Proof/Machine/Dispatch.lean ====
section
/-! DEFINITION. One arm per operation of R71, in the table's order. -/

namespace Sys2Proof.Machine

def exec (i : Instr) (s : State) : Host.Outcome State Fault Refusal :=
  match i with
  | .crcClr => Sys2Proof.Machine.execCrcClr s
  | .crcUpd b => Sys2Proof.Machine.execCrcUpd b s
  | .crcRd => Sys2Proof.Machine.execCrcRd s
  | .xorClr => Sys2Proof.Machine.execXorClr s
  | .xorByte b => Sys2Proof.Machine.execXorByte b s
  | .xorRd => Sys2Proof.Machine.execXorRd s
  | .enc type payload => Sys2Proof.Machine.execEnc type payload s
  | .accClr => Sys2Proof.Machine.execAccClr s
  | .accPush chunk => Sys2Proof.Machine.execAccPush chunk s
  | .accLen => Sys2Proof.Machine.execAccLen s
  | .dec => Sys2Proof.Machine.execDec s

end Sys2Proof.Machine
end

