-- ==== Sys2Proof/WellFormed.lean ====
section
/-! DEFINITION. Which terms of `Instr` are operations an agent can present: the length operands of
format S are 16-bit values (R70, R71), so the sequence has at most 65535 bytes. -/

namespace Sys2Proof

/-- R71: `plen : u16` and `clen : u16` bound the sequence operands; every other operand has every
value of its type. -/
def Instr.wf : Instr → Bool
  | .crcClr => true
  | .crcUpd _ => true
  | .crcRd => true
  | .xorClr => true
  | .xorByte _ => true
  | .xorRd => true
  | .enc _ payload => decide (payload.length < 65536)
  | .accClr => true
  | .accPush chunk => decide (chunk.length < 65536)
  | .accLen => true
  | .dec => true

end Sys2Proof
end

