-- ==== Sys2Proof/Decode.lean ====
section
/-! DEFINITION. Decoding a presented command (R69 to R72), total, rejecting by name, and the encoder
written from the same table of operation codes (R71). -/

namespace Sys2Proof

/-- What the decoder reads from a presented command. -/
inductive Decoded where
  /-- One of the eleven operations with its operands. -/
  | instr (i : Instr)
  /-- R72: an illegal command word; its operands are ignored. -/
  | illegalOp
  /-- The command word is legal and the operand values are not those its format names: R69 and R70
  do not admit this as the presentation of an operation (notes/assumptions/6.md). -/
  | operandsNotOfFormat
deriving DecidableEq, Repr

/-- R69: `op = CW[15:8]`. -/
def cwOp (cw : U16) : Byte := cw.extractLsb' 8 8

/-- R69: `imm8 = CW[7:0]`. -/
def cwImm (cw : U16) : Byte := cw.extractLsb' 0 8

/-- R69: the command word with a given `op` and `imm8`. -/
def cwOf (op imm : Byte) : U16 := op ++ imm

/-! The operation codes, R71. -/

def opCrcClr : Byte := 0x00#8
def opCrcUpd : Byte := 0x01#8
def opCrcRd : Byte := 0x02#8
def opXorClr : Byte := 0x10#8
def opXorByte : Byte := 0x11#8
def opXorRd : Byte := 0x12#8
def opEnc : Byte := 0x20#8
def opAccClr : Byte := 0x30#8
def opAccPush : Byte := 0x31#8
def opAccLen : Byte := 0x32#8
def opDec : Byte := 0x33#8

/-- R70: format Z and B take no operand values after the command word. -/
def takeNone (i : Instr) : List Operand → Decoded
  | [] => .instr i
  | _ :: _ => .operandsNotOfFormat

/-- R70, R71: `ENC` takes `type : u16`, `plen : u16` and `plen` bytes. -/
def takeEnc : List Operand → Decoded
  | [.u16 type, .u16 plen, .bytes payload] =>
    if payload.length = plen.toNat then .instr (.enc type payload) else .operandsNotOfFormat
  | _ => .operandsNotOfFormat

/-- R70, R71: `ACC.PUSH` takes `clen : u16` and `clen` bytes. -/
def takeAccPush : List Operand → Decoded
  | [.u16 clen, .bytes chunk] =>
    if chunk.length = clen.toNat then .instr (.accPush chunk) else .operandsNotOfFormat
  | _ => .operandsNotOfFormat

/-- R70, R72: in formats Z and S a non-zero `imm8` is illegal, before any operand is looked at. -/
def ifImmZero (imm : Byte) (d : Decoded) : Decoded := if imm = 0x00#8 then d else .illegalOp

/-- R69 to R72: the operation a presented command stands for. -/
def decode (c : Command) : Decoded :=
  let op := cwOp c.cw
  let imm := cwImm c.cw
  if op = opCrcClr then ifImmZero imm (takeNone .crcClr c.operands)
  else if op = opCrcUpd then takeNone (.crcUpd imm) c.operands
  else if op = opCrcRd then ifImmZero imm (takeNone .crcRd c.operands)
  else if op = opXorClr then ifImmZero imm (takeNone .xorClr c.operands)
  else if op = opXorByte then takeNone (.xorByte imm) c.operands
  else if op = opXorRd then ifImmZero imm (takeNone .xorRd c.operands)
  else if op = opEnc then ifImmZero imm (takeEnc c.operands)
  else if op = opAccClr then ifImmZero imm (takeNone .accClr c.operands)
  else if op = opAccPush then ifImmZero imm (takeAccPush c.operands)
  else if op = opAccLen then ifImmZero imm (takeNone .accLen c.operands)
  else if op = opDec then ifImmZero imm (takeNone .dec c.operands)
  else .illegalOp

/-- R70, R71: the command an agent presents for an operation. -/
def encode : Instr → Command
  | .crcClr => ⟨cwOf opCrcClr 0x00#8, []⟩
  | .crcUpd b => ⟨cwOf opCrcUpd b, []⟩
  | .crcRd => ⟨cwOf opCrcRd 0x00#8, []⟩
  | .xorClr => ⟨cwOf opXorClr 0x00#8, []⟩
  | .xorByte b => ⟨cwOf opXorByte b, []⟩
  | .xorRd => ⟨cwOf opXorRd 0x00#8, []⟩
  | .enc type payload =>
    ⟨cwOf opEnc 0x00#8, [.u16 type, .u16 (BitVec.ofNat 16 payload.length), .bytes payload]⟩
  | .accClr => ⟨cwOf opAccClr 0x00#8, []⟩
  | .accPush chunk =>
    ⟨cwOf opAccPush 0x00#8, [.u16 (BitVec.ofNat 16 chunk.length), .bytes chunk]⟩
  | .accLen => ⟨cwOf opAccLen 0x00#8, []⟩
  | .dec => ⟨cwOf opDec 0x00#8, []⟩

/-! The reading of a table word. The spec gives a command no serial layout (R69), so the place of
operand words in a longer number is this model's own and is used by nothing but the two functions
the host calls (notes/assumptions/7.md). -/

/-- The 16-bit word whose least significant bit is bit `pos` of `v`. -/
def wordAtBit (v pos : Nat) : U16 := BitVec.ofNat 16 (v / 2 ^ pos)

/-- `n` bytes of `v`, the first at bit `pos`. -/
def bytesAtBit (v pos n : Nat) : Bytes :=
  (List.range n).map fun j => BitVec.ofNat 8 (v / 2 ^ (pos + 8 * j))

/-- The command whose bits are the low `nbits` bits of `w` and zero above: the command word in bits
15..0, then the operand words in order, then the bytes of the sequence. -/
def tableCommand (nbits w : Nat) : Command :=
  let v := w % 2 ^ nbits
  let cw := wordAtBit v 0
  let operands : List Operand :=
    if cwOp cw = opEnc then
      [.u16 (wordAtBit v 16), .u16 (wordAtBit v 32), .bytes (bytesAtBit v 48 (wordAtBit v 32).toNat)]
    else if cwOp cw = opAccPush then
      [.u16 (wordAtBit v 16), .bytes (bytesAtBit v 32 (wordAtBit v 16).toNat)]
    else []
  ⟨cw, operands⟩

/-- The instruction the decoder reads from a row's word of `opcode_table.json`. -/
def decodeTableWord (nbits w : Nat) : Option Instr :=
  match decode (tableCommand nbits w) with
  | .instr i => some i
  | .illegalOp => none
  | .operandsNotOfFormat => none

end Sys2Proof
end

