-- ==== Sys2Proof/Machine/Fetch.lean ====
section
/-! DEFINITION. Taking the next presented event. There is no program counter and no instruction
fetch (R27, R52): the block takes what an agent presents, in the order of `State.presented`. -/

namespace Sys2Proof.Machine

/-- What the block takes up next. -/
inductive Fetched where
  /-- R27: nothing is presented. -/
  | idle
  /-- R190: the reset event, and the state without it. -/
  | reset (s : State)
  /-- An operation, and the state in which it is performed. -/
  | run (i : Instr) (s : State)
  /-- R72: an illegal command word, and the state in which it is answered. -/
  | illegal (s : State)
  /-- Operand values that are not of the format of the command word. -/
  | malformed (cw : U16)
deriving DecidableEq, Repr

/-- The state in which the operation of agent `a` is performed, the events `rest` still to come. -/
def State.taking (s : State) (a : Agent) (rest : List Event) : State :=
  { s with presented := rest, presenter := a }

/-- R49, R69: the next event, decoded. -/
def fetch (s : State) : Fetched :=
  match s.presented with
  | [] => .idle
  | .reset :: rest => .reset { s with presented := rest }
  | .operation a c :: rest =>
    match decode c with
    | .instr i => .run i (s.taking a rest)
    | .illegalOp => .illegal (s.taking a rest)
    | .operandsNotOfFormat => .malformed c.cw

/-- R72, R177: an illegal command word changes no state and returns `ILLEGAL_OP` with no value. -/
def afterIllegalOp (s : State) : State := s.raise .illegalOp

/-- The state in which agent `a` presents the command `c` before everything else. -/
def State.present (s : State) (a : Agent) (c : Command) : State :=
  { s with presented := .operation a c :: s.presented }

end Sys2Proof.Machine
end

