-- ==== Sys2Proof/Machine/Step.lean ====
section
/-! DEFINITION. One step: the block performs the next presented event, wholly (R49). -/

namespace Sys2Proof.Machine

/-- R27, R49, R190, R72: idle, reset, an operation, an illegal command word. -/
def step (s : State) : Host.Outcome State Fault Refusal :=
  match fetch s with
  | .idle => .next s
  | .reset s' => .next s'.resetBlock
  | .run i s' => exec i s'
  | .illegal s' => .next (afterIllegalOp s')
  | .malformed cw => .refused (.operandsNotOfFormat cw)

/-- The host's port: agent `host 0` presents the table word's command before everything else, so
that the very next step performs it (notes/assumptions/8.md). -/
def State.withFetchWord (s : State) (nbits w : Nat) : State :=
  s.present (.host 0) (tableCommand nbits w)

end Sys2Proof.Machine
end

