-- ==== Sys2Proof/Machine/Run.lean ====
section
/-! DEFINITION. Operations under ANY configuration, sequences of them, and the pseudo-operations of
R76. `exec` performs an operation under the configuration of this hardware; the spec's rules hold
for every value of the parameters (R6 to R9, R112), and `perform` says them so. Its arms are the
same meanings as `exec`'s (Laws/Exec.lean: `exec_eq_perform`). -/

namespace Sys2Proof.Machine

/-- The state after an operation, for a block configured with `cfg`. -/
def perform (cfg : Config) (i : Instr) (s : State) : State :=
  match i with
  | .crcClr => afterCrcClr s
  | .crcUpd b => afterCrcUpd b s
  | .crcRd => afterCrcRd s
  | .xorClr => afterXorClr s
  | .xorByte b => afterXorByte cfg b s
  | .xorRd => afterXorRd s
  | .enc type payload => afterEnc cfg type payload s
  | .accClr => afterAccClr s
  | .accPush chunk => afterAccPush cfg chunk s
  | .accLen => afterAccLen s
  | .dec => afterDec cfg s

/-- R74: the record an operation returns, for a block configured with `cfg`. -/
def resultOf (cfg : Config) (i : Instr) (s : State) : Result :=
  match i with
  | .crcClr => Result.done
  | .crcUpd _ => Result.done
  | .crcRd => Result.okValue (.u16 s.crc)
  | .xorClr => Result.done
  | .xorByte b => Result.okValue (.byte (b ^^^ keyByte cfg s.kidx.toNat))
  | .xorRd => Result.okValue (.index s.kidx)
  | .enc type payload => serialize cfg type payload
  | .accClr => Result.done
  | .accPush chunk =>
    if withinCap cfg (s.acc.length + chunk.length) then Result.done else Result.failed .accFull
  | .accLen => Result.okValue (.length s.acc.length)
  | .dec => (parse cfg s.acc).1

/-- R49, R204: a sequence of operations, one wholly after the other. -/
def performAll (cfg : Config) : List Instr → State → State
  | [], s => s
  | i :: is, s => performAll cfg is (perform cfg i s)

/-! What the agents have seen. -/

/-- The results of a record list, without the agents they went to. -/
def resultsOf (l : List (Agent × Result)) : List Result := l.map Prod.snd

/-- The Messages delivered, in order. -/
def messagesOf : List Result → List Message
  | [] => []
  | ⟨.ok, some (.message m)⟩ :: rs => m :: messagesOf rs
  | _ :: rs => messagesOf rs

/-- The bytes returned by `XOR.BYTE`, in order. -/
def bytesOf : List Result → Bytes
  | [] => []
  | ⟨.ok, some (.byte b)⟩ :: rs => b :: bytesOf rs
  | _ :: rs => bytesOf rs

/-! The pseudo-operations, R76, each with its own operations alone. Operations of other agents may
fall between them (R50, R76): such a run is another list for `performAll` (DESIGN CHOICE,
notes/assumptions/22.md). -/

/-- `CRC.BUF {s}`. -/
def crcBuf (s : Bytes) : List Instr := .crcClr :: (s.map .crcUpd ++ [.crcRd])

/-- `XOR.BUF {s}`. -/
def xorBuf (s : Bytes) : List Instr := .xorClr :: s.map .xorByte

/-- `ACC.PUSH` of a sequence of any length, written as one line: consecutive pushes of consecutive
pieces. R76 does not say how the pieces are cut, and with a finite `ACC_CAP` the sizes show in which
piece is refused. DESIGN CHOICE: every piece but the last has 65535 bytes (notes/assumptions/21.md).
The first argument bounds the number of pieces (notes/assumptions/17.md). -/
def pushPieces : Nat → Bytes → List Instr
  | 0, _ => []
  | _ + 1, [] => []
  | n + 1, b :: s => .accPush ((b :: s).take 65535) :: pushPieces n ((b :: s).drop 65535)

/-- A long `ACC.PUSH`, cut as `pushPieces` says; a sequence of `n` bytes needs at most `n` pieces. -/
def pushLong (s : Bytes) : List Instr := pushPieces s.length s

/-- R151: `DEC` repeated until one returns `NO_MESSAGE`, at most `n` times, with no operation of
another agent between (notes/assumptions/22.md). -/
def decRepeat (cfg : Config) : Nat → State → State
  | 0, s => s
  | n + 1, s =>
    if (parse cfg s.acc).1.status = .noMessage then afterDec cfg s
    else decRepeat cfg n (afterDec cfg s)

/-- `DEC.ALL`. DESIGN CHOICE: its `DEC`s run with no operation of another agent between them, although
R50 and R76 let one fall there (notes/assumptions/22.md). So no byte enters `ACC` during the loop, and
by R152 at most `len(ACC) / 2` `DEC`s return something other than `NO_MESSAGE`: one more than that
reaches the end of the loop. -/
def decAll (cfg : Config) (s : State) : State := decRepeat cfg (s.acc.length / 2 + 1) s

/-- The result of `DEC.ALL`: the Messages of its `DEC`s that returned `OK`, in order. -/
def decAllMessages (cfg : Config) (s : State) : List Message :=
  messagesOf (resultsOf ((decAll cfg s).returned.drop s.returned.length))

end Sys2Proof.Machine
end

