-- ==== Sys2Proof/Safety.lean ====
section
/-! DEFINITION. What counts as a safe state and a safe run: the capacity bound (R20, R23), the kind
of result value (R71), the accumulator as a suffix of what was appended (R24), and schedules
(R49, R50). -/

namespace Sys2Proof.Safety

open Sys2Proof.Machine

/-- R20, R23: the accumulator of a block configured with `cfg` holds at most `ACC_CAP` bytes. -/
def AccWithinCap (cfg : Config) (s : State) : Prop := Memory.wf cfg s.acc = true

/-- R71: the kind of result value an operation has when its status is `OK`. -/
def valueFits : Instr → Option Value → Bool
  | .crcClr, v => v.isNone
  | .crcUpd _, v => v.isNone
  | .crcRd, v => match v with | some (.u16 _) => true | _ => false
  | .xorClr, v => v.isNone
  | .xorByte _, v => match v with | some (.byte _) => true | _ => false
  | .xorRd, v => match v with | some (.index _) => true | _ => false
  | .enc _ _, v => match v with | some (.packet _) => true | _ => false
  | .accClr, v => v.isNone
  | .accPush _, v => v.isNone
  | .accLen, v => match v with | some (.length _) => true | _ => false
  | .dec, v => match v with | some (.message _) => true | _ => false

/-- R24: what an operation does to `W`, the concatenation of every chunk appended since the last
`ACC.CLR` or reset; `s` is the state in which it is performed. -/
def appendedAfter (cfg : Config) (i : Instr) (s : State) (W : Bytes) : Bytes :=
  match i with
  | .accClr => []
  | .accPush chunk => if withinCap cfg (s.acc.length + chunk.length) then W ++ chunk else W
  | _ => W

/-- R24: what a step does to `W`. -/
def appendedAfterStep (s : State) (W : Bytes) : Bytes :=
  match fetch s with
  | .idle => W
  | .reset _ => []
  | .run i s' => appendedAfter hardware i s' W
  | .illegal _ => W
  | .malformed _ => W

/-- R50: the commands of one agent, in the order in which they are performed. Two event lists are
schedules of the same programs when every agent's commands are the same in both (R49 (a)). -/
def commandsOf (a : Agent) : List Event → List Command
  | [] => []
  | .operation b c :: rest => if b = a then c :: commandsOf a rest else commandsOf a rest
  | .reset :: rest => commandsOf a rest

/-- R139, R155: a sequence that contains no `AB CD` pair. -/
def NoMarker (g : Bytes) : Prop := ∀ k : Nat, ¬ (g[k]? = some 0xAB#8 ∧ g[k + 1]? = some 0xCD#8)

/-- R155: the operations of a receiving run, pushes and `DEC`s. -/
def isPushOrDec : Instr → Bool
  | .accPush _ => true
  | .dec => true
  | _ => false

/-- R155: the bytes pushed by a sequence of operations, in order. -/
def pushedBytes : List Instr → Bytes
  | [] => []
  | .accPush chunk :: is => chunk ++ pushedBytes is
  | _ :: is => pushedBytes is

/-- R60, R139: the first header marker of `a` stands after `pre` and is followed by the length field
`msgLen`, `msgLen + 2` bytes of region, two bytes where the trailer belongs, and `post`. -/
structure FrameIn (a pre : Bytes) (msgLen : Nat) (region : Bytes) (t0 t1 : Byte) (post : Bytes) :
    Prop where
  layout : a = pre ++ [0xAB#8, 0xCD#8] ++ bytesLe16 (BitVec.ofNat 16 msgLen) ++ region ++ [t0, t1] ++ post
  first : NoMarker pre
  width : msgLen < 65536
  size : region.length = msgLen + 2

/-- R141, R143: after the first header marker there are fewer than 6 bytes more, or fewer than the
frame needs by its length field. -/
def PartialFrameIn (a : Bytes) : Prop :=
  ∃ pre rest, a = pre ++ [0xAB#8, 0xCD#8] ++ rest ∧ NoMarker pre ∧
    (rest.length < 6 ∨
      ∃ l0 l1 more, rest = l0 :: l1 :: more ∧ more.length < (le16 l0 l1).toNat + 4)

/-- R154: the Message that a payload encoded with a type comes back as. -/
def sentMessage (type : U16) (payload : Bytes) : Message :=
  { type
    declaredLen := BitVec.ofNat 16 payload.length
    raw := payload ++ (if payload.length % 2 = 1 then [0x00#8] else [])
    payload }

/-- R50: the bytes still to be pushed by the events presented. -/
def pendingBytes : List Event → Bytes
  | [] => []
  | .reset :: rest => pendingBytes rest
  | .operation _ c :: rest =>
    match decode c with
    | .instr i => pushedBytes [i] ++ pendingBytes rest
    | .illegalOp => pendingBytes rest
    | .operandsNotOfFormat => pendingBytes rest

/-- Whether an event leaves the buffered stream in being: it is neither the reset event nor
`ACC.CLR`. -/
def keepsStream : Event → Bool
  | .reset => false
  | .operation _ c => decide (decode c ≠ .instr .accClr)

/-- R50, R155: how the accumulator, the Messages returned and the bytes still to come stand to
the Messages `sent`. Those returned are the first ones of `sent`; the buffered bytes and the `pending`
ones begin the packets of all the others; and there is room for them. -/
def StreamInv (cfg : Config) (sent : List (U16 × Bytes)) (s : State) (pending : Bytes) : Prop :=
  withinCap cfg (s.acc.length + pending.length) = true ∧
  ∃ delivered waiting, sent = delivered ++ waiting ∧
    messagesOf (resultsOf s.returned) = delivered.map (fun m => sentMessage m.1 m.2) ∧
    s.acc ++ pending <+: (waiting.map fun m => packetOf cfg m.1 m.2).flatten

/-- R96 (d), R156: `s` with bit `k` of byte `i` flipped. -/
def flipBit (s : Bytes) (i k : Nat) : Bytes := s.set i (byteAt s i ^^^ (1#8 <<< k))

/-- The configuration under which the spec's `K0` vectors stand (95_test_vectors.md): the all-zero
key, `CRC_CHECK` true, `ACC_CAP` unbounded, `MAX_PAYLOAD` 65530. -/
def zeroKeyConfig : Config :=
  { key := Vector.replicate 16 0x00#8, crcCheck := true, accCap := none, maxPayload := 65530 }

/-- R2: the three units. -/
inductive BlockUnit where
  | uCrc
  | uXor
  | uFrm
deriving DecidableEq, Repr

/-- R71: the unit of an operation. -/
def unitOf : Instr → BlockUnit
  | .crcClr => .uCrc
  | .crcUpd _ => .uCrc
  | .crcRd => .uCrc
  | .xorClr => .uXor
  | .xorByte _ => .uXor
  | .xorRd => .uXor
  | .enc _ _ => .uFrm
  | .accClr => .uFrm
  | .accPush _ => .uFrm
  | .accLen => .uFrm
  | .dec => .uFrm

/-- R74: the records that were returned to one agent, in order. -/
def answersTo (a : Agent) : List (Agent × Result) → List Result
  | [] => []
  | (b, r) :: rest => if b = a then r :: answersTo a rest else answersTo a rest

/-- The three elements of R20. -/
def SameBlock (s t : State) : Prop := s.crc = t.crc ∧ s.kidx = t.kidx ∧ s.acc = t.acc

end Sys2Proof.Safety
end

