-- ==== Sys2Proof/Certificates/Slice0/Obligations.lean ====
section
/-! DEFINITION. The statements for the provers. A statement over `exec` or `step` is about this
hardware, whose `KEY` and `ACC_CAP` are opaque; a statement over `perform cfg` holds for a block of
any configuration `cfg` (R6 to R9, R112). Where a statement rests on a rule that the spec marks as
its own inference ("[derived: ...]"), or on a choice of this model, its docstring says so. -/

open Sys2Proof Sys2Proof.Machine Sys2Proof.Safety

/-! ## Encoding -/

/-- R71: the command words of the eleven operations, written out from the table (the codes are the
spec's decision D2). -/
def Obligations.TableWordsDecode : Prop :=
  decode ⟨0x0000#16, []⟩ = .instr .crcClr ∧
  decode ⟨0x0131#16, []⟩ = .instr (.crcUpd 0x31#8) ∧
  decode ⟨0x0200#16, []⟩ = .instr .crcRd ∧
  decode ⟨0x1000#16, []⟩ = .instr .xorClr ∧
  decode ⟨0x11FF#16, []⟩ = .instr (.xorByte 0xFF#8) ∧
  decode ⟨0x1200#16, []⟩ = .instr .xorRd ∧
  decode ⟨0x2000#16, [.u16 0xBEEF#16, .u16 0x0003#16, .bytes [0x01#8, 0x02#8, 0x03#8]]⟩ =
    .instr (.enc 0xBEEF#16 [0x01#8, 0x02#8, 0x03#8]) ∧
  decode ⟨0x3000#16, []⟩ = .instr .accClr ∧
  decode ⟨0x3100#16, [.u16 0x0002#16, .bytes [0xAB#8, 0xCD#8]]⟩ =
    .instr (.accPush [0xAB#8, 0xCD#8]) ∧
  decode ⟨0x3200#16, []⟩ = .instr .accLen ∧
  decode ⟨0x3300#16, []⟩ = .instr .dec

/-- Decoding the command presented for a well-formed operation gives the operation back, with every
operand at every value (R69 to R71). -/
def Obligations.DecodeInvertsEncode : Prop :=
  ∀ i : Instr, i.wf = true → decode (encode i) = .instr i

/-- A command that decodes to an operation is the one command that stands for it: no encoding
behaves as another operation (R72). -/
def Obligations.EncodeInvertsDecode : Prop :=
  ∀ (c : Command) (i : Instr), decode c = .instr i → i.wf = true ∧ encode i = c

/-- R72, R177: which command words are illegal, whatever operands come with them, and that one of
them changes no state and returns `ILLEGAL_OP` with no value (the spec's decision D19). -/
def Obligations.IllegalWordsChangeNothing : Prop :=
  Status.illegalOp.code = 7#3 ∧
  ∀ (cw : U16) (ops : List Operand),
    (decode ⟨cw, ops⟩ = .illegalOp ↔
      (cw.extractLsb' 8 8 ∉ [0x00#8, 0x01#8, 0x02#8, 0x10#8, 0x11#8, 0x12#8, 0x20#8, 0x30#8, 0x31#8,
          0x32#8, 0x33#8] ∨
        (cw.extractLsb' 8 8 ∉ [0x01#8, 0x11#8] ∧ cw.extractLsb' 0 8 ≠ 0x00#8))) ∧
    ∀ (s : State) (a : Agent) (rest : List Event),
      s.presented = .operation a ⟨cw, ops⟩ :: rest → decode ⟨cw, ops⟩ = .illegalOp →
      step s = .next { s with
        presented := rest, presenter := a, returned := s.returned ++ [(a, ⟨.illegalOp, none⟩)] }

/-! ## Steps, reset, schedules -/

/-- R49, R69: a step performs the next presented operation. Around `exec` a step only takes the
event off the list and notes whose it is (the model's interface fields, notes/assumptions/1.md). -/
def Obligations.StepRunsPresentedOperation : Prop :=
  ∀ (s : State) (a : Agent) (c : Command) (rest : List Event) (i : Instr),
    s.presented = .operation a c :: rest → decode c = .instr i →
    step s = exec i { s with presented := rest, presenter := a }

/-- R27: with nothing presented the block is idle (notes/assumptions/11.md). R190: the reset event
leaves the reset state of the block, the same as the three clear operations together, and nothing
else changes (notes/assumptions/12.md). -/
def Obligations.StepIdlesAndResets : Prop :=
  (∀ s : State, s.presented = [] → step s = .next s) ∧
  (∀ (s : State) (rest : List Event), s.presented = .reset :: rest →
    step s = .next { s with crc := 0x0000#16, kidx := 0#4, acc := [], presented := rest }) ∧
  (∀ (cfg : Config) (s : State),
    SameBlock (performAll cfg [.crcClr, .xorClr, .accClr] s) State.reset)

/-- A step never faults, and it is refused only for operand values that are not of the format of a
legal command word, which R69 and R70 do not admit (notes/assumptions/6.md, the model's choice). -/
def Obligations.StepStopsOnlyOnMalformedOperands : Prop :=
  ∀ s : State, (∀ f, step s ≠ .fault f) ∧
    ∀ r, step s = .refused r → ∃ a c rest, s.presented = .operation a c :: rest ∧
      decode c = .operandsNotOfFormat ∧ r = .operandsNotOfFormat c.cw

/-- R33, R190 (the values are the spec's decision D15), and the invariant of the capacity holds at
reset. -/
def Obligations.ResetLeavesSpecValues : Prop :=
  State.reset.crc = 0x0000#16 ∧ State.reset.kidx = 0#4 ∧ State.reset.acc = [] ∧
  State.reset.accLen = 0 ∧ AccWithinCap hardware State.reset

/-- R49 (a), R74: whatever the schedule, each agent's operations are performed, and answered, in
the order in which that agent presented them. -/
def Obligations.EachAgentAnsweredInItsOwnOrder : Prop :=
  ∀ (s t : State), step s = .next t → ∀ a : Agent,
    (commandsOf a t.presented = commandsOf a s.presented ∧
      answersTo a t.returned = answersTo a s.returned) ∨
    ∃ c r, commandsOf a s.presented = c :: commandsOf a t.presented ∧
      answersTo a t.returned = answersTo a s.returned ++ [r]

/-- R49, R204: running the block over a list of presented operations, of any agents, performs them
one after the other in that order. -/
def Obligations.RunPerformsPresentedList : Prop :=
  ∀ (ops : List (Agent × Instr)) (s : State), (∀ p ∈ ops, p.2.wf = true) →
    s.presented = ops.map (fun p => Event.operation p.1 (encode p.2)) →
    ∃ t : State, Host.Core.run Sys2Proof.core ops.length s = .next t ∧
      SameBlock t (performAll hardware (ops.map Prod.snd) s) ∧ t.presented = [] ∧
      resultsOf t.returned = resultsOf (performAll hardware (ops.map Prod.snd) s).returned ∧
      (t.returned.drop s.returned.length).map Prod.fst = ops.map Prod.fst

/-! ## Result records -/

/-- R73: the codes, and which operation returns which (the numbers are the spec's decision D11). -/
def Obligations.StatusesByOperation : Prop :=
  (Status.ok.code = 0#3 ∧ Status.noMessage.code = 1#3 ∧ Status.framingError.code = 2#3 ∧
    Status.corruptCrc.code = 3#3 ∧ Status.corruptShort.code = 4#3 ∧ Status.badOperand.code = 5#3 ∧
    Status.accFull.code = 6#3 ∧ Status.illegalOp.code = 7#3) ∧
  ∀ (cfg : Config) (i : Instr) (s : State),
    ∃ r : Result, (perform cfg i s).returned = s.returned ++ [(s.presenter, r)] ∧
      (r.status.code ∈ [1#3, 2#3, 3#3, 4#3] → i = .dec) ∧
      (r.status.code = 5#3 → ∃ type payload, i = .enc type payload) ∧
      (r.status.code = 6#3 → ∃ chunk, i = .accPush chunk) ∧
      r.status.code ≠ 7#3

/-- R74, R203: an operation, once presented, completes; it returns exactly one record, to the agent
that presented it; a value comes only with `OK`, and then it is the one R71 gives the operation.
`exec` is `perform` under the configuration of this hardware, which has `CRC_CHECK` true (R7, the spec's
decision D6) and `MAX_PAYLOAD` 65530 (R9, its decision D18; notes/assumptions/5.md). -/
def Obligations.EveryOperationCompletesWithOneRecord : Prop :=
  hardware.crcCheck = true ∧ hardware.maxPayload = 65530 ∧
  ∀ (i : Instr) (s : State), ∃ (t : State) (r : Result), exec i s = .next t ∧
    t = perform hardware i s ∧ t.presented = s.presented ∧ t.presenter = s.presenter ∧
    t.returned = s.returned ++ [(s.presenter, r)] ∧
    (r.status ≠ .ok → r.value = none) ∧ (r.status = .ok → valueFits i r.value = true)

/-! ## U_CRC -/

/-- R93 (the operation is the spec's decision D2, D12), with its encoding and its example. The next
state is written whole: everything else is unchanged. -/
def Obligations.CrcClrClearsRegister : Prop :=
  decode ⟨0x0000#16, []⟩ = .instr .crcClr ∧
  (∀ s : State, exec .crcClr s = .next { s with
    crc := 0x0000#16, returned := s.returned ++ [(s.presenter, ⟨.ok, none⟩)] }) ∧
  ∀ (cfg : Config) (s : State), (performAll cfg [.crcClr, .crcRd] s).returned =
    s.returned ++ [(s.presenter, ⟨.ok, none⟩), (s.presenter, ⟨.ok, some (.u16 0x0000#16)⟩)]

/-- R94 (the spec's decision D2, D12), with its encoding, its corner case and its example. -/
def Obligations.CrcUpdTakesOneStep : Prop :=
  (∀ b : Byte, decode ⟨0x0100#16 ||| b.setWidth 16, []⟩ = .instr (.crcUpd b)) ∧
  (∀ (b : Byte) (s : State), exec (.crcUpd b) s = .next { s with
    crc := crc16Step s.crc b, returned := s.returned ++ [(s.presenter, ⟨.ok, none⟩)] }) ∧
  crc16Step 0x0000#16 0x00#8 = 0x0000#16 ∧
  crc16Step 0x0000#16 0x31#8 = 0x2672#16 ∧ crc16Step 0x2672#16 0x32#8 = 0x20B5#16

/-- R95 (the spec's decision D2, D12), with its encoding and its example. -/
def Obligations.CrcRdReturnsRegister : Prop :=
  decode ⟨0x0200#16, []⟩ = .instr .crcRd ∧
  (∀ s : State, exec .crcRd s = .next { s with
    returned := s.returned ++ [(s.presenter, ⟨.ok, some (.u16 s.crc)⟩)] }) ∧
  ∀ (cfg : Config) (s : State),
    (performAll cfg (.crcClr :: ([0x31#8, 0x32#8, 0x33#8, 0x34#8, 0x35#8, 0x36#8, 0x37#8, 0x38#8,
        0x39#8].map .crcUpd ++ [.crcRd])) s).returned.getLast? =
      some (s.presenter, ⟨.ok, some (.u16 0x31C3#16)⟩)

/-- R91: from the initial value, byte after byte in index order, nothing at the end; in a frame the
sequence covered is the body, before obfuscation. -/
def Obligations.CrcOfSequence : Prop :=
  crc16 [] = 0x0000#16 ∧ (∀ (s : Bytes) (b : Byte), crc16 (s ++ [b]) = crc16Step (crc16 s) b) ∧
  ∀ (cfg : Config) (type : U16) (payload : Bytes), regionOf cfg type payload =
    obf cfg (bodyOf type payload ++ bytesLe16 (crc16 (bodyOf type payload)))

/-- R21, R76 (`CRC.BUF`; the spec's decisions D12, D25): after `CRC.CLR` and a `CRC.UPD` of each
byte the register holds `crc16` of the bytes, `CRC.RD` returns it, and nothing else has changed. The sequence runs with no operation of another agent
between its own, the model's choice (notes/assumptions/22.md). -/
def Obligations.CrcBufComputesCrc : Prop :=
  ∀ (cfg : Config) (b : Bytes) (s : State),
    performAll cfg (crcBuf b) s = { s with
      crc := crc16 b
      returned := s.returned ++ List.replicate (b.length + 1) (s.presenter, ⟨.ok, none⟩) ++
        [(s.presenter, ⟨.ok, some (.u16 (crc16 b))⟩)] }

/-- R96 (a), (b), (c), (e) [derived: from rules R90, R91]: the step depends on the byte only through
its exclusive or with the high byte of the running value; linearity; leading zeros are invisible;
the first sixteen table entries. -/
def Obligations.CrcTableFormLinearityAndZeros : Prop :=
  (∀ (c : U16) (b : Byte), crc16Step c b = (c <<< 8) ^^^ crc16Step 0x0000#16 (hi c ^^^ b)) ∧
  (∀ s t : Bytes, s.length = t.length →
    crc16 (List.zipWith (· ^^^ ·) s t) = crc16 s ^^^ crc16 t) ∧
  (∀ (n : Nat) (s : Bytes), crc16 (List.replicate n 0x00#8 ++ s) = crc16 s) ∧
  (List.range 16).map (fun v => crc16Step 0x0000#16 (BitVec.ofNat 8 v)) =
    [0x0000#16, 0x1021#16, 0x2042#16, 0x3063#16, 0x4084#16, 0x50A5#16, 0x60C6#16, 0x70E7#16,
      0x8108#16, 0x9129#16, 0xA14A#16, 0xB16B#16, 0xC18C#16, 0xD1AD#16, 0xE1CE#16, 0xF1EF#16]

/-- R96 (d) [derived: from rules R90, R91]: a flipped bit anywhere changes the CRC. -/
def Obligations.CrcDetectsSingleBitFlip : Prop :=
  ∀ (s : Bytes) (i k : Nat), i < s.length → k < 8 → crc16 (flipBit s i k) ≠ crc16 s

/-- R97 [derived: from rules R90, R91, R42]: appending the CRC high byte first gives zero; in the
wire order, low byte first, it does not, as the spec's example shows. -/
def Obligations.CrcResidueHighByteFirst : Prop :=
  (∀ s : Bytes, crc16 (s ++ [hi (crc16 s), lo (crc16 s)]) = 0x0000#16) ∧
  crc16 ([0x34#8, 0x12#8, 0x01#8, 0x00#8, 0x55#8, 0x00#8] ++ [0x0A#8, 0xEE#8]) = 0x61DC#16

open Polynomial in
/-- R92 (an equivalence the spec supplies from general knowledge, G2): `crc16` is the remainder of
`M(x) x^16` by `x^16 + x^12 + x^5 + 1` over GF(2), first byte and bit 7 first. -/
def Obligations.CrcIsPolynomialRemainder : Prop :=
  ∀ s : Bytes,
    (∑ j ∈ Finset.range 16, if (crc16 s).getLsbD j then (X : (ZMod 2)[X]) ^ j else 0) =
      ((∑ i ∈ Finset.range s.length, ∑ k ∈ Finset.range 8,
        if (byteAt s i).getLsbD (7 - k) then (X : (ZMod 2)[X]) ^ (8 * s.length - 1 - 8 * i - k)
        else 0) * X ^ 16) %ₘ (X ^ 16 + X ^ 12 + X ^ 5 + 1)

/-! ## U_XOR -/

/-- R109 (the spec's decision D2, D12), with its encoding and its example. -/
def Obligations.XorClrClearsIndex : Prop :=
  decode ⟨0x1000#16, []⟩ = .instr .xorClr ∧
  (∀ s : State, exec .xorClr s = .next { s with
    kidx := 0#4, returned := s.returned ++ [(s.presenter, ⟨.ok, none⟩)] }) ∧
  (∀ (cfg : Config) (s : State), (performAll cfg [.xorClr, .xorRd] s).returned =
    s.returned ++ [(s.presenter, ⟨.ok, none⟩), (s.presenter, ⟨.ok, some (.index 0#4)⟩)]) ∧
  ∀ (cfg : Config) (b : Byte) (s : State), (performAll cfg [.xorClr, .xorByte b] s).returned =
    s.returned ++ [(s.presenter, ⟨.ok, none⟩), (s.presenter, ⟨.ok, some (.byte (b ^^^ cfg.key[0]))⟩)]

/-- R110 (the spec's decision D2, D12): the byte meets `KEY[KIDX]` and the index moves on by one,
from 15 to 0. -/
def Obligations.XorByteUsesIndexAndAdvances : Prop :=
  (∀ b : Byte, decode ⟨0x1100#16 ||| b.setWidth 16, []⟩ = .instr (.xorByte b)) ∧
  (∀ (b : Byte) (s : State), exec (.xorByte b) s = .next { s with
    kidx := s.kidx + 1#4
    returned := s.returned ++
      [(s.presenter, ⟨.ok, some (.byte (b ^^^ hardware.key[s.kidx.toNat]'s.kidx.isLt))⟩)] }) ∧
  ∀ (cfg : Config) (b : Byte) (s : State), s.kidx = 15#4 → (perform cfg (.xorByte b) s).kidx = 0#4

/-- R111 (the spec's decision D2, D12), with its encoding and its example. -/
def Obligations.XorRdReturnsIndex : Prop :=
  decode ⟨0x1200#16, []⟩ = .instr .xorRd ∧
  (∀ s : State, exec .xorRd s = .next { s with
    returned := s.returned ++ [(s.presenter, ⟨.ok, some (.index s.kidx)⟩)] }) ∧
  ∀ (cfg : Config) (bs : Bytes) (s : State), bs.length = 17 →
    (performAll cfg (.xorClr :: (bs.map .xorByte ++ [.xorRd])) s).returned.getLast? =
      some (s.presenter, ⟨.ok, some (.index 1#4)⟩)

/-- R105: the length is kept and byte `i` is XORed with `KEY[i mod 16]`; under the all-zero key
`obf` is the identity. -/
def Obligations.ObfuscationBytewise : Prop :=
  ∀ cfg : Config,
    (∀ s : Bytes, (obf cfg s).length = s.length ∧
      ∀ (i : Nat) (h : i < s.length),
        (obf cfg s)[i]? = some (s[i] ^^^ cfg.key[i % 16]'(Nat.mod_lt i (by decide)))) ∧
    obf cfg [] = [] ∧
    (cfg.key = Vector.replicate 16 0x00#8 → ∀ s : Bytes, obf cfg s = s)

/-- R107 [derived: from rule R105], doc00's idempotence of obfuscation. -/
def Obligations.ObfuscationSelfInverse : Prop :=
  ∀ (cfg : Config) (s : Bytes), obf cfg (obf cfg s) = s

/-- R110, R76 (`XOR.BUF`) [derived: from rules R105, R109]: the bytes returned by `XOR.CLR` and an
`XOR.BYTE` of each byte of a sequence are `obf` of the sequence; `CRC` and `ACC` stay. The sequence runs
with no operation of another agent between its own, the model's choice (notes/assumptions/22.md). -/
def Obligations.XorBufComputesObfuscation : Prop :=
  ∀ (cfg : Config) (b : Bytes) (s : State),
    let t := performAll cfg (xorBuf b) s
    bytesOf (resultsOf (t.returned.drop s.returned.length)) = obf cfg b ∧
    t.kidx = BitVec.ofNat 4 b.length ∧ t.crc = s.crc ∧ t.acc = s.acc

/-! ## The serializer -/

/-- R126, R127 (the bound is the spec's decision D18): the packet, or `BAD_OPERAND`; no state is
written or read. With the encoding, the corner case of a zero body and the example of R126. -/
def Obligations.EncReturnsPacket : Prop :=
  (∀ (type : U16) (payload : Bytes), payload.length < 65536 →
    decode ⟨0x2000#16, [.u16 type, .u16 (BitVec.ofNat 16 payload.length), .bytes payload]⟩ =
      .instr (.enc type payload)) ∧
  (∀ (type : U16) (payload : Bytes) (s : State), payload.length ≤ 65530 →
    let dataLen := 4 + payload.length
    let msgLen := dataLen + dataLen % 2
    let pad := if dataLen % 2 = 1 then [0x00#8] else []
    let body := bytesLe16 type ++ bytesLe16 (BitVec.ofNat 16 payload.length) ++ payload ++ pad
    let region := obf hardware (body ++ bytesLe16 (crc16 body))
    exec (.enc type payload) s = .next { s with
      returned := s.returned ++ [(s.presenter, ⟨.ok, some (.packet
        ([0xAB#8, 0xCD#8] ++ bytesLe16 (BitVec.ofNat 16 msgLen) ++ region ++ [0xDC#8, 0xBA#8]))⟩)] }) ∧
  (∀ (type : U16) (payload : Bytes) (s : State), 65530 < payload.length →
    exec (.enc type payload) s = .next { s with
      returned := s.returned ++ [(s.presenter, ⟨.badOperand, none⟩)] }) ∧
  (∀ cfg : Config, serialize cfg 0x0000#16 [] = ⟨.ok, some (.packet
    ([0xAB#8, 0xCD#8, 0x04#8, 0x00#8] ++ cfg.key.toList.take 6 ++ [0xDC#8, 0xBA#8]))⟩) ∧
  serialize zeroKeyConfig 0x1234#16 [0x55#8] = ⟨.ok, some (.packet
    [0xAB#8, 0xCD#8, 0x06#8, 0x00#8, 0x34#8, 0x12#8, 0x01#8, 0x00#8, 0x55#8, 0x00#8, 0x0A#8, 0xEE#8,
      0xDC#8, 0xBA#8])⟩

/-- R128 (a), (b), (c) [derived: from rules R120 to R126]: the shape of a packet. -/
def Obligations.PacketShape : Prop :=
  ∀ (cfg : Config) (type : U16) (payload f : Bytes), cfg.maxPayload ≤ 65530 →
    serialize cfg type payload = ⟨.ok, some (.packet f)⟩ →
    let msgLen := 4 + payload.length + (4 + payload.length) % 2
    let body := bytesLe16 type ++ bytesLe16 (BitVec.ofNat 16 payload.length) ++ payload ++
      (if (4 + payload.length) % 2 = 1 then [0x00#8] else [])
    f.length = 8 + msgLen ∧ f.length % 2 = 0 ∧ 12 ≤ f.length ∧
    slice f 0 2 = [0xAB#8, 0xCD#8] ∧ (le16At f 2).toNat = msgLen ∧
    slice f (6 + msgLen) (8 + msgLen) = [0xDC#8, 0xBA#8] ∧
    obf cfg (slice f 4 (6 + msgLen)) = body ++ bytesLe16 (crc16 body)

/-- R128 (d), (e) [derived: from rules R120 to R126]: the packet determines type and payload. -/
def Obligations.EncIsInjective : Prop :=
  ∀ (cfg : Config) (type1 type2 : U16) (payload1 payload2 f : Bytes), cfg.maxPayload ≤ 65530 →
    serialize cfg type1 payload1 = ⟨.ok, some (.packet f)⟩ →
    serialize cfg type2 payload2 = ⟨.ok, some (.packet f)⟩ →
    type1 = type2 ∧ payload1 = payload2

/-- R128 (f) [derived: from rules R120 to R126]: the key enters a packet only as the repeating XOR of
bytes 4 to `5 + msgLen`. -/
def Obligations.PacketUnderKeyIsMaskedZeroKeyPacket : Prop :=
  ∀ (cfg : Config) (type : U16) (payload f f0 : Bytes),
    serialize cfg type payload = ⟨.ok, some (.packet f)⟩ →
    serialize { cfg with key := Vector.replicate 16 0x00#8 } type payload =
      ⟨.ok, some (.packet f0)⟩ →
    f = slice f0 0 4 ++ obf cfg (slice f0 4 (f0.length - 2)) ++ slice f0 (f0.length - 2) f0.length

/-! ## The accumulator operations -/

/-- R135 (the spec's decision D2), with its encoding and its example. -/
def Obligations.AccClrEmptiesAccumulator : Prop :=
  decode ⟨0x3000#16, []⟩ = .instr .accClr ∧
  (∀ s : State, exec .accClr s = .next { s with
    acc := [], returned := s.returned ++ [(s.presenter, ⟨.ok, none⟩)] }) ∧
  ∀ (cfg : Config) (chunk : Bytes) (s : State),
    (performAll cfg [.accPush chunk, .accClr, .accLen] s).returned.getLast? =
      some (s.presenter, ⟨.ok, some (.length 0)⟩)

/-- R136 (capacity D7, empty chunk D24), with its encoding: the whole chunk is appended when it
fits, and nothing of it otherwise. -/
def Obligations.AccPushAppendsWholeChunkOrNothing : Prop :=
  (∀ chunk : Bytes, chunk.length < 65536 →
    decode ⟨0x3100#16, [.u16 (BitVec.ofNat 16 chunk.length), .bytes chunk]⟩ =
      .instr (.accPush chunk)) ∧
  (∀ (chunk : Bytes) (s : State), withinCap hardware (s.acc.length + chunk.length) = true →
    exec (.accPush chunk) s = .next { s with
      acc := s.acc ++ chunk, returned := s.returned ++ [(s.presenter, ⟨.ok, none⟩)] }) ∧
  (∀ (cfg : Config) (chunk : Bytes) (s : State),
    (∀ cap, cfg.accCap = some cap → s.acc.length + chunk.length ≤ cap) →
    perform cfg (.accPush chunk) s = { s with
      acc := s.acc ++ chunk, returned := s.returned ++ [(s.presenter, ⟨.ok, none⟩)] }) ∧
  (∀ (cfg : Config) (cap : Nat) (chunk : Bytes) (s : State), cfg.accCap = some cap →
    cap < s.acc.length + chunk.length →
    perform cfg (.accPush chunk) s = { s with
      returned := s.returned ++ [(s.presenter, ⟨.accFull, none⟩)] })

/-- R136 [derived: from R47], R76: chunk boundaries carry no meaning, and a long push is the same as
one append, whatever the pieces. R76 does not say where a long push is cut; the second clause is about
the cut this model chose (notes/assumptions/21.md). -/
def Obligations.ChunkBoundariesCarryNoMeaning : Prop :=
  (∀ (cfg : Config) (pieces : List Bytes) (s : State),
    withinCap cfg (s.acc.length + pieces.flatten.length) = true →
    (performAll cfg (pieces.map .accPush) s).acc = (perform cfg (.accPush pieces.flatten) s).acc) ∧
  (∀ b : Bytes, pushedBytes (pushLong b) = b ∧ ∀ i ∈ pushLong b, i.wf = true)

/-- R137 (the spec's decision D2), with its encoding and its bound. -/
def Obligations.AccLenReturnsLength : Prop :=
  decode ⟨0x3200#16, []⟩ = .instr .accLen ∧
  (∀ s : State, exec .accLen s = .next { s with
    returned := s.returned ++ [(s.presenter, ⟨.ok, some (.length s.acc.length)⟩)] }) ∧
  ∀ (cfg : Config) (s : State) (cap n : Nat), AccWithinCap cfg s → cfg.accCap = some cap →
    (perform cfg .accLen s).returned =
      s.returned ++ [(s.presenter, ⟨.ok, some (.length n)⟩)] → n ≤ cap

/-- R40, R47, R48: what each operation leaves at each index of the accumulator. An accepted push
keeps every byte at its index and puts `chunk[j]` at `len(ACC) + j`; `DEC` removes some number `k` of
the oldest bytes and moves the others down by `k`; only `ACC.CLR` besides these changes a byte. -/
def Obligations.AccumulatorByteFrame : Prop :=
  ∀ (cfg : Config) (s : State),
    (∀ i : Instr, i ≠ .accClr → i ≠ .dec → (∀ chunk, i ≠ .accPush chunk) →
      ∀ x, (perform cfg i s).readByte x = s.readByte x) ∧
    (∀ chunk : Bytes, withinCap cfg (s.acc.length + chunk.length) = true →
      (∀ x, x < s.acc.length → (perform cfg (.accPush chunk) s).readByte x = s.readByte x) ∧
      (∀ j, (perform cfg (.accPush chunk) s).readByte (s.acc.length + j) = chunk[j]?)) ∧
    (∀ chunk : Bytes, withinCap cfg (s.acc.length + chunk.length) = false →
      ∀ x, (perform cfg (.accPush chunk) s).readByte x = s.readByte x) ∧
    (∃ k, k ≤ s.acc.length ∧ ∀ x, (perform cfg .dec s).readByte x = s.readByte (x + k)) ∧
    (∀ x, (perform cfg .accClr s).readByte x = none)

/-! ## The parser -/

/-- R139: the least index at which `AB CD` stands, and none when there is no such index. -/
def Obligations.MarkerSearchFindsFirstMatch : Prop :=
  ∀ a : Bytes,
    (∀ p : Nat, findMarker a = some p ↔
      (a[p]? = some 0xAB#8 ∧ a[p + 1]? = some 0xCD#8 ∧
        ∀ q, q < p → ¬ (a[q]? = some 0xAB#8 ∧ a[q + 1]? = some 0xCD#8))) ∧
    (findMarker a = none ↔ NoMarker a) ∧
    findMarker [0xAB#8, 0xAB#8, 0xCD#8] = some 1

/-- R140, R171 (a): no marker. -/
def Obligations.DecWithoutMarkerKeepsTrailingAB : Prop :=
  ∀ s : State, NoMarker s.acc →
    exec .dec s = .next { s with
      acc := if s.acc.getLast? = some 0xAB#8 then [0xAB#8] else []
      returned := s.returned ++ [(s.presenter, ⟨.noMessage, none⟩)] }

/-- R141, R143, R171 (b), (c): an incomplete frame is waited for and nothing changes. -/
def Obligations.DecWaitsForWholeFrame : Prop :=
  ∀ s : State, PartialFrameIn s.acc →
    exec .dec s = .next { s with returned := s.returned ++ [(s.presenter, ⟨.noMessage, none⟩)] }

/-- R144, R172: a wrong trailer drops everything through the marker, nothing more. -/
def Obligations.DecTrailerMismatchResynchronises : Prop :=
  ∀ (s : State) (pre region post : Bytes) (msgLen : Nat) (t0 t1 : Byte),
    FrameIn s.acc pre msgLen region t0 t1 post → (t0 ≠ 0xDC#8 ∨ t1 ≠ 0xBA#8) →
    exec .dec s = .next { s with
      acc := bytesLe16 (BitVec.ofNat 16 msgLen) ++ region ++ [t0, t1] ++ post
      returned := s.returned ++ [(s.presenter, ⟨.framingError, none⟩)] }

/-- R146, R174 (the spec's decision D9): a frame with a matching trailer and no room for its two
fields. -/
def Obligations.DecShortBodyResynchronises : Prop :=
  ∀ (s : State) (pre region post : Bytes) (msgLen : Nat),
    FrameIn s.acc pre msgLen region 0xDC#8 0xBA#8 post → msgLen < 4 →
    exec .dec s = .next { s with
      acc := bytesLe16 (BitVec.ofNat 16 msgLen) ++ region ++ [0xDC#8, 0xBA#8] ++ post
      returned := s.returned ++ [(s.presenter, ⟨.corruptShort, none⟩)] }

/-- R147, R173 (the recovery is the spec's decision D8, `CRC_CHECK = true` its decision D6): a CRC
field that does not match. Without the check (`CRC_CHECK` false) the Message is delivered. -/
def Obligations.DecCrcMismatchResynchronises : Prop :=
  (∀ (s : State) (pre region post body : Bytes) (msgLen : Nat) (c : U16),
    FrameIn s.acc pre msgLen region 0xDC#8 0xBA#8 post → 4 ≤ msgLen →
    obf hardware region = body ++ bytesLe16 c → crc16 body ≠ c →
    exec .dec s = .next { s with
      acc := bytesLe16 (BitVec.ofNat 16 msgLen) ++ region ++ [0xDC#8, 0xBA#8] ++ post
      returned := s.returned ++ [(s.presenter, ⟨.corruptCrc, none⟩)] }) ∧
  (∀ (cfg : Config) (s : State) (pre region post raw : Bytes) (type declaredLen c : U16)
    (msgLen : Nat), cfg.crcCheck = false →
    FrameIn s.acc pre msgLen region 0xDC#8 0xBA#8 post →
    obf cfg region = bytesLe16 type ++ bytesLe16 declaredLen ++ raw ++ bytesLe16 c →
    perform cfg .dec s = { s with
      acc := post
      returned := s.returned ++ [(s.presenter, ⟨.ok, some (.message
        { type, declaredLen, raw, payload := raw.take (min declaredLen.toNat raw.length) })⟩)] })

/-- R145, R148, R149 (payload and declared length are the spec's decision D16, the bytes before the
marker its decision D17): an intact frame is delivered and consumed with everything before it. -/
def Obligations.DecDeliversIntactFrame : Prop :=
  ∀ (s : State) (pre region post raw : Bytes) (type declaredLen : U16) (msgLen : Nat),
    FrameIn s.acc pre msgLen region 0xDC#8 0xBA#8 post →
    (let body := bytesLe16 type ++ bytesLe16 declaredLen ++ raw
     obf hardware region = body ++ bytesLe16 (crc16 body)) →
    exec .dec s = .next { s with
      acc := post
      returned := s.returned ++ [(s.presenter, ⟨.ok, some (.message
        { type, declaredLen, raw, payload := raw.take (min declaredLen.toNat raw.length) })⟩)] }

/-- R150, R178: every accumulator has one of the forms that the statements about `DEC` speak of, so
no form is left out; a whole frame's region is an obfuscated body and CRC field. -/
def Obligations.DecFormsCoverEveryAccumulator : Prop :=
  ∀ (cfg : Config) (a : Bytes), NoMarker a ∨ PartialFrameIn a ∨
    ∃ pre msgLen region t0 t1 post, FrameIn a pre msgLen region t0 t1 post ∧
      ∃ body c, body.length = msgLen ∧ obf cfg region = body ++ bytesLe16 c

/-- R171: `ACC.LEN` after a `NO_MESSAGE` tells the no-marker cause, at most 1, from the others, at
least 2. -/
def Obligations.NoMessageCauseShowsInLength : Prop :=
  ∀ s t : State, exec .dec s = .next t →
    t.returned = s.returned ++ [(s.presenter, ⟨.noMessage, none⟩)] →
    (NoMarker s.acc ∧ t.acc.length ≤ 1) ∨
    (¬ NoMarker s.acc ∧ t.acc = s.acc ∧ 2 ≤ t.acc.length)

/-! ## Laws of the parser and of both directions together -/

/-- R152 [derived: from rules R144, R146, R147, R149]: every `DEC` that does not return `NO_MESSAGE`
makes progress. -/
def Obligations.DecMakesProgress : Prop :=
  ∀ (cfg : Config) (s : State) (r : Result),
    (perform cfg .dec s).returned = s.returned ++ [(s.presenter, r)] →
    (r.status = .ok → (perform cfg .dec s).acc.length + 12 ≤ s.acc.length) ∧
    (r.status ≠ .noMessage → (perform cfg .dec s).acc.length + 2 ≤ s.acc.length)

/-- R153 [derived: from rules R139, R140, R141, R143]: after a `NO_MESSAGE` a second `DEC` returns
`NO_MESSAGE` and changes nothing. -/
def Obligations.NoMessageIsRestingPoint : Prop :=
  ∀ (cfg : Config) (s : State),
    (perform cfg .dec s).returned = s.returned ++ [(s.presenter, ⟨.noMessage, none⟩)] →
    performAll cfg [.dec, .dec] s = { perform cfg .dec s with
      returned := s.returned ++
        [(s.presenter, ⟨.noMessage, none⟩), (s.presenter, ⟨.noMessage, none⟩)] }

/-- R151, R152, R76 (`DEC.ALL`) [derived: from rules R144, R146, R147, R149]: the caller's loop ends,
after at most `n / 2` `DEC`s that return something else, with a `NO_MESSAGE`. The loop runs with no
operation of another agent between its `DEC`s, the model's choice (notes/assumptions/22.md). -/
def Obligations.DecAllEndsWithNoMessage : Prop :=
  ∀ (cfg : Config) (s : State), ∃ rs : List Result, rs.length ≤ s.acc.length / 2 ∧
    decAll cfg s = performAll cfg (List.replicate (rs.length + 1) .dec) s ∧
    (decAll cfg s).returned = s.returned ++ rs.map (fun r => (s.presenter, r)) ++
      [(s.presenter, ⟨.noMessage, none⟩)] ∧
    ∀ r ∈ rs, r.status ≠ .noMessage

/-- R154 [derived: from rules R126, R150]: decoding undoes encoding, for every key, type and payload
(doc00's round trip, X1). -/
def Obligations.EncodeThenDecodeRoundTrip : Prop :=
  ∀ (cfg : Config) (type : U16) (payload : Bytes) (s : State), cfg.maxPayload ≤ 65530 →
    payload.length ≤ cfg.maxPayload → s.acc = [] →
    withinCap cfg (8 + (4 + payload.length + (4 + payload.length) % 2)) = true →
    ∃ f : Bytes, serialize cfg type payload = ⟨.ok, some (.packet f)⟩ ∧
      performAll cfg [.accPush f, .dec] s = { s with
        returned := s.returned ++ [(s.presenter, ⟨.ok, none⟩),
          (s.presenter, ⟨.ok, some (.message (sentMessage type payload))⟩)] }

/-- R155 [derived: from rules R136, R139 to R150]: garbage without a marker, a packet, garbage, cut
into chunks in any way with `DEC`s anywhere between the pushes (X3). The last `DEC.ALL` runs alone
(notes/assumptions/22.md). -/
def Obligations.ResynchronisationDeliversExactlyOneMessage : Prop :=
  ∀ (cfg : Config) (type : U16) (payload f g1 g2 : Bytes) (script : List Instr) (s : State),
    cfg.maxPayload ≤ 65530 → serialize cfg type payload = ⟨.ok, some (.packet f)⟩ →
    NoMarker g1 → NoMarker g2 → (∀ i ∈ script, isPushOrDec i = true) →
    pushedBytes script = g1 ++ f ++ g2 → withinCap cfg (g1 ++ f ++ g2).length = true →
    s.acc = [] →
    let t := decAll cfg (performAll cfg script s)
    messagesOf (resultsOf (t.returned.drop s.returned.length)) = [sentMessage type payload] ∧
    t.acc = if g2.getLast? = some 0xAB#8 then [0xAB#8] else []

/-- R50, R155 and program P5 [derived]: whatever the schedule of the writer's pushes and the host's
`DEC`s, the Messages delivered are a prefix of the Messages sent and no `DEC` reports an error. -/
def Obligations.DeliveredMessagesArePrefixOfSent : Prop :=
  ∀ (cfg : Config) (sent : List (U16 × Bytes)) (script : List Instr) (s : State),
    cfg.maxPayload ≤ 65530 → (∀ m ∈ sent, m.2.length ≤ cfg.maxPayload) →
    (∀ i ∈ script, isPushOrDec i = true) →
    pushedBytes script <+: (sent.map fun m => packetOf cfg m.1 m.2).flatten →
    withinCap cfg (pushedBytes script).length = true → s.acc = [] →
    let new := resultsOf ((performAll cfg script s).returned.drop s.returned.length)
    messagesOf new <+: sent.map (fun m => sentMessage m.1 m.2) ∧
    ∀ r ∈ new, r.status = .ok ∨ r.status = .noMessage

/-- R156 [derived: from rules R139 to R150]: one flipped bit in the region of a packet is
`CORRUPT_CRC`, or unseen without the CRC check; in the trailer it is `FRAMING_ERROR` (X2). That
`CORRUPT_CRC` drops the two bytes of the marker is the spec's decision D8. -/
def Obligations.SingleBitFlipIsDetected : Prop :=
  ∀ (cfg : Config) (type : U16) (payload f : Bytes) (s : State) (j k : Nat),
    cfg.maxPayload ≤ 65530 → serialize cfg type payload = ⟨.ok, some (.packet f)⟩ →
    4 ≤ j → j < f.length → k < 8 → s.acc = flipBit f j k →
    (j < f.length - 2 → cfg.crcCheck = true → perform cfg .dec s = { s with
      acc := s.acc.drop 2, returned := s.returned ++ [(s.presenter, ⟨.corruptCrc, none⟩)] }) ∧
    (j < f.length - 2 → cfg.crcCheck = false →
      ∃ m, perform cfg .dec s = { s with
        acc := [], returned := s.returned ++ [(s.presenter, ⟨.ok, some (.message m)⟩)] }) ∧
    (f.length - 2 ≤ j → perform cfg .dec s = { s with
      acc := s.acc.drop 2, returned := s.returned ++ [(s.presenter, ⟨.framingError, none⟩)] })

/-- R196 [derived: from rules R136, R141 to R144]: a full accumulator whose first marker waits for
more bytes stands still under pushes and `DEC`s; `ACC.CLR` leaves it. -/
def Obligations.FullAccumulatorStandstill : Prop :=
  ∀ (cfg : Config) (cap : Nat) (script : List Instr) (s : State), cfg.accCap = some cap →
    s.acc.length = cap → PartialFrameIn s.acc → (∀ i ∈ script, isPushOrDec i = true) →
    (performAll cfg script s).acc = s.acc ∧
    messagesOf (resultsOf ((performAll cfg script s).returned.drop s.returned.length)) = [] ∧
    (perform cfg .accClr (performAll cfg script s)).acc = []

/-! ## Rules of the whole machine -/

/-- R21, R22, R23: which operations can change which element of the state. -/
def Obligations.OnlyNamedOperationsWriteEachElement : Prop :=
  ∀ (i : Instr) (s t : State), exec i s = .next t →
    (t.crc ≠ s.crc → i = .crcClr ∨ ∃ b, i = .crcUpd b) ∧
    (t.kidx ≠ s.kidx → i = .xorClr ∨ ∃ b, i = .xorByte b) ∧
    (t.acc ≠ s.acc → i = .accClr ∨ (∃ chunk, i = .accPush chunk) ∨ i = .dec)

/-- R180 [derived: from rules R171 to R177]: what a failing operation leaves behind. -/
def Obligations.FailingOperationEffect : Prop :=
  ∀ (cfg : Config) (i : Instr) (s : State) (r : Result),
    (perform cfg i s).returned = s.returned ++ [(s.presenter, r)] → r.status ≠ .ok →
    (perform cfg i s).crc = s.crc ∧ (perform cfg i s).kidx = s.kidx ∧
    ((perform cfg i s).acc ≠ s.acc → i = .dec ∧
      (r.status = .noMessage ∧ NoMarker s.acc ∨ r.status = .framingError ∨
        r.status = .corruptCrc ∨ r.status = .corruptShort))

/-- R2, R21, R22 (the spec's decision D21), R198 [derived]: the units share no state. Operations of
different units commute on the block's state and each returns the same record in either order. -/
def Obligations.UnitsDoNotInterfere : Prop :=
  ∀ (cfg : Config) (i j : Instr) (s : State), unitOf i ≠ unitOf j →
    SameBlock (performAll cfg [i, j] s) (performAll cfg [j, i] s) ∧
    ∃ ri rj : Result,
      (performAll cfg [i, j] s).returned =
        s.returned ++ [(s.presenter, ri), (s.presenter, rj)] ∧
      (performAll cfg [j, i] s).returned =
        s.returned ++ [(s.presenter, rj), (s.presenter, ri)]

/-- R2, R126, R150 (the spec's decision D21): the operations of U_FRM neither read nor write `CRC`
and `KIDX`: two states that differ only there stay so and get the same record. -/
def Obligations.FramerIgnoresStandaloneRegisters : Prop :=
  ∀ (i : Instr) (s t : State) (c : U16) (k : BitVec 4), unitOf i = .uFrm →
    exec i s = .next t →
    t.crc = s.crc ∧ t.kidx = s.kidx ∧
    exec i { s with crc := c, kidx := k } = .next { t with crc := c, kidx := k }

/-! ## Invariants -/

/-- R20, R23: every step keeps the accumulator within its capacity. -/
def Obligations.CapacityInvariant : Prop :=
  ∀ s t : State, AccWithinCap hardware s → step s = .next t → AccWithinCap hardware t

/-- R24 [derived: from rules R23, R136, R140, R144, R149]: at every moment the accumulator is a
suffix of the concatenation `W` of the chunks appended since the last `ACC.CLR` or reset: no byte is
reordered or duplicated. -/
def Obligations.AccumulatorIsSuffixOfAppended : Prop :=
  ∀ (s t : State) (W : Bytes), s.acc <:+ W → step s = .next t → t.acc <:+ appendedAfterStep s W

/-- R50, R155 [derived], the law behind `DeliveredMessagesArePrefixOfSent` for one operation and for one
step: whatever is performed, `ACC.CLR` and the reset event apart, the Messages returned stay the first of those sent and
the accumulator, with what is still to be pushed, stays the beginning of the packets of the others. -/
def Obligations.StreamInvariant : Prop :=
  (∀ (cfg : Config) (sent : List (U16 × Bytes)) (i : Instr) (s : State) (pending : Bytes),
    cfg.maxPayload ≤ 65530 → (∀ m ∈ sent, m.2.length ≤ cfg.maxPayload) → i ≠ .accClr →
    StreamInv cfg sent s (pushedBytes [i] ++ pending) →
    StreamInv cfg sent (perform cfg i s) pending) ∧
  (∀ (sent : List (U16 × Bytes)) (s t : State), (∀ m ∈ sent, m.2.length ≤ 65530) →
    (∀ e ∈ s.presented, keepsStream e = true) →
    StreamInv hardware sent s (pendingBytes s.presented) → step s = .next t →
    (∀ e ∈ t.presented, keepsStream e = true) ∧
    StreamInv hardware sent t (pendingBytes t.presented))
end

