-- ==== Sys2Proof/Laws/Crc.lean ====
section
/-! SUPPORT. `crc16` over a sequence in parts (R91). -/

namespace Sys2Proof.Machine

@[simp] theorem crc16_nil : crc16 [] = 0x0000#16 := rfl

/-- R91: the running value after `s` carries on over `t`. -/
theorem crc16_append (s t : Bytes) : crc16 (s ++ t) = t.foldl crc16Step (crc16 s) := by
  simp [crc16]

end Sys2Proof.Machine
end

