-- ==== Sys2Proof/Laws/Decode.lean ====
section
/-! SUPPORT. The command word's two fields (R69) and the operand readers (R70). -/

namespace Sys2Proof

@[simp] theorem cwOp_cwOf (op imm : Byte) : cwOp (cwOf op imm) = op := by
  apply BitVec.eq_of_getLsbD_eq
  intro i h
  simp only [cwOp, cwOf, BitVec.getLsbD_extractLsb', BitVec.getLsbD_append]
  simp [h]

@[simp] theorem cwImm_cwOf (op imm : Byte) : cwImm (cwOf op imm) = imm := by
  apply BitVec.eq_of_getLsbD_eq
  intro i h
  simp only [cwImm, cwOf, BitVec.getLsbD_extractLsb', BitVec.getLsbD_append]
  simp [h]

/-- R69: a command word is its two fields. -/
theorem cwOf_cwOp_cwImm (cw : U16) : cwOf (cwOp cw) (cwImm cw) = cw := by
  apply BitVec.eq_of_getLsbD_eq
  intro i h
  simp only [cwOf, cwOp, cwImm, BitVec.getLsbD_append, BitVec.getLsbD_extractLsb']
  by_cases h8 : i < 8
  · simp [h8]
  · have h1 : 8 + (i - 8) = i := by omega
    have h2 : i - 8 < 8 := by omega
    simp [h8, h1, h2]

/-- R70: what format Z and B accept. -/
theorem takeNone_eq_instr {i j : Instr} {ops : List Operand} (h : takeNone i ops = .instr j) :
    ops = [] ∧ j = i := by
  cases ops with
  | nil => simp_all [takeNone]
  | cons o os => simp [takeNone] at h

/-- R70, R71: what `ENC` accepts. -/
theorem takeEnc_eq_instr {j : Instr} {ops : List Operand} (h : takeEnc ops = .instr j) :
    ∃ type payload, payload.length < 65536 ∧ j = .enc type payload ∧
      ops = [.u16 type, .u16 (BitVec.ofNat 16 payload.length), .bytes payload] := by
  unfold takeEnc at h
  split at h
  · rename_i type plen payload
    split at h
    · rename_i hl
      have hp := plen.isLt
      refine ⟨type, payload, by omega, by simpa using h.symm, ?_⟩
      simp [hl]
    · simp at h
  · simp at h

/-- R70, R71: what `ACC.PUSH` accepts. -/
theorem takeAccPush_eq_instr {j : Instr} {ops : List Operand} (h : takeAccPush ops = .instr j) :
    ∃ chunk, chunk.length < 65536 ∧ j = .accPush chunk ∧
      ops = [.u16 (BitVec.ofNat 16 chunk.length), .bytes chunk] := by
  unfold takeAccPush at h
  split at h
  · rename_i clen chunk
    split at h
    · rename_i hl
      have hp := clen.isLt
      refine ⟨chunk, by omega, by simpa using h.symm, ?_⟩
      simp [hl]
    · simp at h
  · simp at h

/-- R72: formats Z and S accept only `imm8 = 0`. -/
theorem ifImmZero_eq_instr {imm : Byte} {d : Decoded} {j : Instr}
    (h : ifImmZero imm d = .instr j) : imm = 0x00#8 ∧ d = .instr j := by
  unfold ifImmZero at h
  split at h
  · exact ⟨‹_›, h⟩
  · simp at h

end Sys2Proof
end

