-- ==== Sys2Proof/Laws/State.lean ====
section
/-! SUPPORT. One lemma per field per update of the state, so that no later proof unfolds a record
update. -/

namespace Sys2Proof.Machine

@[simp] theorem State.setCrc_crc (s : State) (v : U16) : (s.setCrc v).crc = v := rfl
@[simp] theorem State.setCrc_kidx (s : State) (v : U16) : (s.setCrc v).kidx = s.kidx := rfl
@[simp] theorem State.setCrc_acc (s : State) (v : U16) : (s.setCrc v).acc = s.acc := rfl
@[simp] theorem State.setCrc_presented (s : State) (v : U16) : (s.setCrc v).presented = s.presented := rfl
@[simp] theorem State.setCrc_presenter (s : State) (v : U16) : (s.setCrc v).presenter = s.presenter := rfl
@[simp] theorem State.setCrc_returned (s : State) (v : U16) : (s.setCrc v).returned = s.returned := rfl

@[simp] theorem State.setKidx_crc (s : State) (v : BitVec 4) : (s.setKidx v).crc = s.crc := rfl
@[simp] theorem State.setKidx_kidx (s : State) (v : BitVec 4) : (s.setKidx v).kidx = v := rfl
@[simp] theorem State.setKidx_acc (s : State) (v : BitVec 4) : (s.setKidx v).acc = s.acc := rfl
@[simp] theorem State.setKidx_presented (s : State) (v : BitVec 4) : (s.setKidx v).presented = s.presented := rfl
@[simp] theorem State.setKidx_presenter (s : State) (v : BitVec 4) : (s.setKidx v).presenter = s.presenter := rfl
@[simp] theorem State.setKidx_returned (s : State) (v : BitVec 4) : (s.setKidx v).returned = s.returned := rfl

@[simp] theorem State.setAcc_crc (s : State) (a : Bytes) : (s.setAcc a).crc = s.crc := rfl
@[simp] theorem State.setAcc_kidx (s : State) (a : Bytes) : (s.setAcc a).kidx = s.kidx := rfl
@[simp] theorem State.setAcc_acc (s : State) (a : Bytes) : (s.setAcc a).acc = a := rfl
@[simp] theorem State.setAcc_presented (s : State) (a : Bytes) : (s.setAcc a).presented = s.presented := rfl
@[simp] theorem State.setAcc_presenter (s : State) (a : Bytes) : (s.setAcc a).presenter = s.presenter := rfl
@[simp] theorem State.setAcc_returned (s : State) (a : Bytes) : (s.setAcc a).returned = s.returned := rfl

@[simp] theorem State.append_crc (s : State) (chunk : Bytes) : (s.append chunk).crc = s.crc := rfl
@[simp] theorem State.append_kidx (s : State) (chunk : Bytes) : (s.append chunk).kidx = s.kidx := rfl
@[simp] theorem State.append_acc (s : State) (chunk : Bytes) : (s.append chunk).acc = s.acc ++ chunk := rfl
@[simp] theorem State.append_presented (s : State) (chunk : Bytes) : (s.append chunk).presented = s.presented := rfl
@[simp] theorem State.append_presenter (s : State) (chunk : Bytes) : (s.append chunk).presenter = s.presenter := rfl
@[simp] theorem State.append_returned (s : State) (chunk : Bytes) : (s.append chunk).returned = s.returned := rfl

@[simp] theorem State.reply_crc (s : State) (r : Result) : (s.reply r).crc = s.crc := rfl
@[simp] theorem State.reply_kidx (s : State) (r : Result) : (s.reply r).kidx = s.kidx := rfl
@[simp] theorem State.reply_acc (s : State) (r : Result) : (s.reply r).acc = s.acc := rfl
@[simp] theorem State.reply_presented (s : State) (r : Result) : (s.reply r).presented = s.presented := rfl
@[simp] theorem State.reply_presenter (s : State) (r : Result) : (s.reply r).presenter = s.presenter := rfl
@[simp] theorem State.reply_returned (s : State) (r : Result) : (s.reply r).returned = s.returned ++ [(s.presenter, r)] := rfl

@[simp] theorem State.raise_crc (s : State) (st : Status) : (s.raise st).crc = s.crc := rfl
@[simp] theorem State.raise_kidx (s : State) (st : Status) : (s.raise st).kidx = s.kidx := rfl
@[simp] theorem State.raise_acc (s : State) (st : Status) : (s.raise st).acc = s.acc := rfl
@[simp] theorem State.raise_presented (s : State) (st : Status) : (s.raise st).presented = s.presented := rfl
@[simp] theorem State.raise_presenter (s : State) (st : Status) : (s.raise st).presenter = s.presenter := rfl
@[simp] theorem State.raise_returned (s : State) (st : Status) : (s.raise st).returned = s.returned ++ [(s.presenter, Result.failed st)] := rfl

@[simp] theorem State.resetBlock_crc (s : State) : (s.resetBlock).crc = 0x0000#16 := rfl
@[simp] theorem State.resetBlock_kidx (s : State) : (s.resetBlock).kidx = 0#4 := rfl
@[simp] theorem State.resetBlock_acc (s : State) : (s.resetBlock).acc = [] := rfl
@[simp] theorem State.resetBlock_presented (s : State) : (s.resetBlock).presented = s.presented := rfl
@[simp] theorem State.resetBlock_presenter (s : State) : (s.resetBlock).presenter = s.presenter := rfl
@[simp] theorem State.resetBlock_returned (s : State) : (s.resetBlock).returned = s.returned := rfl

@[simp] theorem State.taking_crc (s : State) (a : Agent) (rest : List Event) : (s.taking a rest).crc = s.crc := rfl
@[simp] theorem State.taking_kidx (s : State) (a : Agent) (rest : List Event) : (s.taking a rest).kidx = s.kidx := rfl
@[simp] theorem State.taking_acc (s : State) (a : Agent) (rest : List Event) : (s.taking a rest).acc = s.acc := rfl
@[simp] theorem State.taking_presented (s : State) (a : Agent) (rest : List Event) : (s.taking a rest).presented = rest := rfl
@[simp] theorem State.taking_presenter (s : State) (a : Agent) (rest : List Event) : (s.taking a rest).presenter = a := rfl
@[simp] theorem State.taking_returned (s : State) (a : Agent) (rest : List Event) : (s.taking a rest).returned = s.returned := rfl

@[simp] theorem State.present_crc (s : State) (a : Agent) (c : Command) : (s.present a c).crc = s.crc := rfl
@[simp] theorem State.present_kidx (s : State) (a : Agent) (c : Command) : (s.present a c).kidx = s.kidx := rfl
@[simp] theorem State.present_acc (s : State) (a : Agent) (c : Command) : (s.present a c).acc = s.acc := rfl
@[simp] theorem State.present_presented (s : State) (a : Agent) (c : Command) : (s.present a c).presented = .operation a c :: s.presented := rfl
@[simp] theorem State.present_presenter (s : State) (a : Agent) (c : Command) : (s.present a c).presenter = s.presenter := rfl
@[simp] theorem State.present_returned (s : State) (a : Agent) (c : Command) : (s.present a c).returned = s.returned := rfl

@[simp] theorem State.readByte_eq (s : State) (i : Nat) : s.readByte i = s.acc[i]? := rfl

@[simp] theorem Result.done_status : Result.done.status = .ok := rfl
@[simp] theorem Result.done_value : Result.done.value = none := rfl
@[simp] theorem Result.okValue_status (v : Value) : (Result.okValue v).status = .ok := rfl
@[simp] theorem Result.okValue_value (v : Value) : (Result.okValue v).value = some v := rfl
@[simp] theorem Result.failed_status (st : Status) : (Result.failed st).status = st := rfl
@[simp] theorem Result.failed_value (st : Status) : (Result.failed st).value = none := rfl

/-- Reset (R33): the three elements of R20. -/
theorem State.reset_block : State.reset.crc = 0x0000#16 ∧ State.reset.kidx = 0#4 ∧ State.reset.acc = [] :=
  ⟨rfl, rfl, rfl⟩

end Sys2Proof.Machine
end

