-- ==== Sys2Proof/Laws/Memory.lean ====
section
/-! SUPPORT. The form of the accumulator (R20, R23, R40) and that every operation on it keeps the
form. -/

namespace Sys2Proof.Machine

/-- R8: fewer bytes fit where more fit. -/
theorem withinCap_mono (cfg : Config) {m n : Nat} (h : m ≤ n) (hn : withinCap cfg n = true) :
    withinCap cfg m = true := by
  unfold withinCap at *
  split
  · rfl
  · simp_all
    omega

/-- R8: no bytes always fit. -/
@[simp] theorem withinCap_zero (cfg : Config) : withinCap cfg 0 = true := by
  unfold withinCap
  split <;> simp

/-- The empty accumulator, reset's and `ACC.CLR`'s. -/
theorem Memory.wf_nil (cfg : Config) : Memory.wf cfg [] = true := withinCap_zero cfg

/-- The accumulator of the reset state. -/
theorem Memory.wf_reset (cfg : Config) : Memory.wf cfg State.reset.acc = true := Memory.wf_nil cfg

/-- R47 with the test of R136. -/
theorem Memory.wf_append (cfg : Config) (a chunk : Bytes)
    (h : withinCap cfg (a.length + chunk.length) = true) : Memory.wf cfg (a ++ chunk) = true := by
  simpa [Memory.wf] using h

/-- R48, R140: any suffix of a well-formed accumulator. -/
theorem Memory.wf_suffix (cfg : Config) {a b : Bytes} (h : b <:+ a) (ha : Memory.wf cfg a = true) :
    Memory.wf cfg b = true := withinCap_mono cfg h.length_le ha

/-- R48: front-consume keeps a suffix. -/
theorem consume_suffix (a : Bytes) (k : Nat) : consume a k <:+ a := List.drop_suffix k a

/-- R40: the addresses of the cells are 0, 1, 2, ... in this order, each once. -/
theorem Memory.cells_addresses (a : Bytes) :
    (Memory.cells a).map Prod.fst = List.range a.length := by
  simp [Memory.cells, Function.comp_def, List.range_eq_range', List.zipIdx_map_snd]

/-- R40: the addresses are strictly rising. -/
theorem Memory.cells_rising (a : Bytes) :
    ((Memory.cells a).map Prod.fst).Pairwise (· < ·) := by
  rw [Memory.cells_addresses]
  exact List.pairwise_lt_range

/-- R40: the bytes of the cells are the accumulator. -/
theorem Memory.cells_bytes (a : Bytes) : (Memory.cells a).map Prod.snd = a := by
  simp [Memory.cells, Function.comp_def, List.zipIdx_map_fst]

/-- Equal cells are equal accumulators: the list of bytes is as canonical as the list of cells. -/
theorem Memory.cells_injective {a b : Bytes} (h : Memory.cells a = Memory.cells b) : a = b := by
  rw [← Memory.cells_bytes a, h, Memory.cells_bytes]

end Sys2Proof.Machine
end

