-- ==== Sys2Proof/Laws/Exec.lean ====
section
/-! SUPPORT. What performing an operation can do, said once (R20 to R23, R74), and what a step can
do. -/

namespace Sys2Proof.Machine

/-- `exec` is `perform` under this hardware's configuration, and always answers a next state. -/
theorem exec_eq_perform (i : Instr) (s : State) : exec i s = .next (perform hardware i s) := by
  cases i <;> rfl

theorem exec_eq_next {i : Instr} {s t : State} :
    exec i s = .next t ↔ t = perform hardware i s := by
  simp [exec_eq_perform, eq_comm]

/-- R74: no operation touches what is presented. -/
@[simp] theorem perform_presented (cfg : Config) (i : Instr) (s : State) :
    (perform cfg i s).presented = s.presented := by
  cases i <;> try rfl
  simp only [perform, afterAccPush]
  split <;> rfl

@[simp] theorem perform_presenter (cfg : Config) (i : Instr) (s : State) :
    (perform cfg i s).presenter = s.presenter := by
  cases i <;> try rfl
  simp only [perform, afterAccPush]
  split <;> rfl

/-- R74: every operation returns exactly one record, to the agent that presented it. -/
theorem perform_returned (cfg : Config) (i : Instr) (s : State) :
    (perform cfg i s).returned = s.returned ++ [(s.presenter, resultOf cfg i s)] := by
  cases i <;> try rfl
  simp only [perform, afterAccPush, resultOf]
  split <;> simp

/-- The accumulator an operation leaves. -/
theorem perform_acc (cfg : Config) (i : Instr) (s : State) :
    (perform cfg i s).acc =
      match i with
      | .accClr => []
      | .accPush chunk =>
        if withinCap cfg (s.acc.length + chunk.length) then s.acc ++ chunk else s.acc
      | .dec => (parse cfg s.acc).2
      | _ => s.acc := by
  cases i <;> try rfl
  simp only [perform, afterAccPush]
  split <;> simp

/-- The `CRC` register an operation leaves. -/
theorem perform_crc (cfg : Config) (i : Instr) (s : State) :
    (perform cfg i s).crc =
      match i with
      | .crcClr => 0x0000#16
      | .crcUpd b => crc16Step s.crc b
      | _ => s.crc := by
  cases i <;> try rfl
  simp only [perform, afterAccPush]
  split <;> rfl

/-- The `KIDX` register an operation leaves. -/
theorem perform_kidx (cfg : Config) (i : Instr) (s : State) :
    (perform cfg i s).kidx =
      match i with
      | .xorClr => 0#4
      | .xorByte _ => s.kidx + 1#4
      | _ => s.kidx := by
  cases i <;> try rfl
  simp only [perform, afterAccPush]
  split <;> rfl

/-- Performing a list in two parts. -/
theorem performAll_append (cfg : Config) (is js : List Instr) (s : State) :
    performAll cfg (is ++ js) s = performAll cfg js (performAll cfg is s) := by
  induction is generalizing s with
  | nil => rfl
  | cons i is ih => exact ih (perform cfg i s)

@[simp] theorem performAll_presenter (cfg : Config) (is : List Instr) (s : State) :
    (performAll cfg is s).presenter = s.presenter := by
  induction is generalizing s with
  | nil => rfl
  | cons i is ih => simp [performAll, ih]

/-- What a step that answers a next state has done (R27, R190, R49, R72). -/
theorem step_cases {s t : State} (h : step s = .next t) :
    (s.presented = [] ∧ t = s) ∨
    (∃ rest, s.presented = .reset :: rest ∧
      t = State.resetBlock { s with presented := rest }) ∨
    (∃ a c rest i, s.presented = .operation a c :: rest ∧ decode c = .instr i ∧
      t = perform hardware i (s.taking a rest)) ∨
    (∃ a c rest, s.presented = .operation a c :: rest ∧ decode c = .illegalOp ∧
      t = (s.taking a rest).raise .illegalOp) := by
  unfold step fetch at h
  split at h <;> rename_i hf <;> split at hf <;> rename_i hp <;> first
    | (simp at hf; done)
    | skip
  · left; simp_all
  · split at hf <;> simp at hf
  · right; left; rename_i rest; simp at hf h; subst hf; exact ⟨rest, hp, h.symm⟩
  · split at hf <;> simp at hf
  · rename_i a c rest
    split at hf <;> simp at hf
    rename_i i hd
    obtain ⟨rfl, rfl⟩ := hf
    rw [exec_eq_next] at h
    exact .inr (.inr (.inl ⟨a, c, rest, _, hp, hd, h⟩))
  · rename_i a c rest
    split at hf <;> simp at hf
    rename_i hd
    subst hf
    simp [afterIllegalOp] at h
    exact .inr (.inr (.inr ⟨a, c, rest, hp, hd, h.symm⟩))
  · simp at h

end Sys2Proof.Machine
end

