-- ==== Sys2Proof/Laws/Operands.lean ====
section
/-! SUPPORT. The byte-order and slicing helpers (R11 to R13). -/

namespace Sys2Proof.Machine

@[simp] theorem length_bytesLe16 (v : U16) : (bytesLe16 v).length = 2 := rfl

/-- R13: `le16` puts its first byte low. -/
@[simp] theorem lo_le16 (b0 b1 : Byte) : lo (le16 b0 b1) = b0 := by
  apply BitVec.eq_of_getLsbD_eq
  intro i h
  have : i < 16 := by omega
  simp [lo, le16, h, this]

/-- R13: `le16` puts its second byte high. -/
@[simp] theorem hi_le16 (b0 b1 : Byte) : hi (le16 b0 b1) = b1 := by
  apply BitVec.eq_of_getLsbD_eq
  intro i h
  have : 8 + i < 16 := by omega
  simp [hi, le16, h, this]

/-- R13: taking a u16 apart and putting it together again. -/
@[simp] theorem le16_lo_hi (v : U16) : le16 (lo v) (hi v) = v := by
  apply BitVec.eq_of_getLsbD_eq
  intro i h
  by_cases h8 : i < 8
  · simp [le16, lo, hi, h, h8]
  · have h1 : 8 + (i - 8) = i := by omega
    have h2 : i - 8 < 8 := by omega
    simp [le16, lo, hi, h, h8, h1, h2]

/-- R13: inside the sequence `byteAt` is the byte there. -/
theorem byteAt_eq_getElem (s : Bytes) (i : Nat) (h : i < s.length) : byteAt s i = s[i] := by
  simp [byteAt, List.getD_eq_getElem?_getD, h]

theorem byteAt_eq_iff (s : Bytes) (i : Nat) (b : Byte) (h : i < s.length) :
    byteAt s i = b ↔ s[i]? = some b := by
  simp [byteAt_eq_getElem s i h, h]

/-- R13: inside the sequence `le16At` reads the two bytes there and nothing else. -/
theorem le16At_eq (s : Bytes) (i : Nat) (h : i + 1 < s.length) :
    le16At s i = le16 s[i] s[i + 1] := by
  simp [le16At, byteAt_eq_getElem s i (by omega), byteAt_eq_getElem s (i + 1) h]

theorem byteAt_append_left (s t : Bytes) (i : Nat) (h : i < s.length) :
    byteAt (s ++ t) i = byteAt s i := by
  simp only [byteAt, List.getD_eq_getElem?_getD, List.getElem?_append_left h]

theorem byteAt_append_right (s t : Bytes) (i : Nat) : byteAt (s ++ t) (s.length + i) = byteAt t i := by
  simp only [byteAt, List.getD_eq_getElem?_getD, List.getElem?_append_right (Nat.le_add_right _ _),
    Nat.add_sub_cancel_left]

/-- R12: the length of a slice that lies inside the sequence. -/
theorem length_slice (s : Bytes) (i j : Nat) (h : j ≤ s.length) : (slice s i j).length = j - i := by
  simp [slice, Nat.min_eq_left h]

/-- R12: a slice at a known place. -/
theorem slice_append (u v w : Bytes) : slice (u ++ v ++ w) u.length (u.length + v.length) = v := by
  simp [slice, List.take_append]

end Sys2Proof.Machine
end

