-- ==== Sys2Proof/Laws/Xor.lean ====
section
/-! SUPPORT. `obf` in parts (R105, R108). -/

namespace Sys2Proof.Machine

/-- R108: `obf` changes no length, whatever the key index it starts at. -/
@[simp] theorem length_obfFrom (cfg : Config) (i : Nat) (s : Bytes) :
    (obfFrom cfg i s).length = s.length := by
  induction s generalizing i with
  | nil => rfl
  | cons b s ih => simp [obfFrom, ih]

/-- R107: the second part of a sequence meets the key where the first part left off. -/
theorem obfFrom_append (cfg : Config) (i : Nat) (s t : Bytes) :
    obfFrom cfg i (s ++ t) = obfFrom cfg i s ++ obfFrom cfg (i + s.length) t := by
  induction s generalizing i with
  | nil => simp [obfFrom]
  | cons b s ih =>
    have : i + 1 + s.length = i + (s.length + 1) := by omega
    simp [obfFrom, ih, this]

/-- R105: the key index counts modulo 16. -/
theorem keyByte_mod (cfg : Config) (i : Nat) : keyByte cfg (i % 16) = keyByte cfg i := by
  simp [keyByte]

end Sys2Proof.Machine
end

