-- ==== Sys2Proof/Laws/Parser.lean ====
section
/-! SUPPORT. What the marker search and `parse` can do, said once (R139 to R150, R178). -/

namespace Sys2Proof.Machine

/-- R139: the search looks at the first pair and then moves on by one byte. -/
theorem findMarker_cons_cons (b0 b1 : Byte) (rest : Bytes) :
    findMarker (b0 :: b1 :: rest) =
      if b0 = HDR0 ∧ b1 = HDR1 then some 0 else (findMarker (b1 :: rest)).map (· + 1) := rfl

/-- R139: a marker that is found lies wholly inside the sequence. -/
theorem findMarker_bound {a : Bytes} {p : Nat} (h : findMarker a = some p) : p + 2 ≤ a.length := by
  induction a generalizing p with
  | nil => simp [findMarker] at h
  | cons b0 t ih =>
    cases t with
    | nil => simp [findMarker] at h
    | cons b1 rest =>
      rw [findMarker_cons_cons] at h
      split at h
      · simp at h; subst h; simp
      · obtain ⟨q, hq, rfl⟩ := Option.map_eq_some_iff.mp h
        have := ih hq
        simp at this ⊢
        omega

/-- R140: what is kept of a buffer without a marker is a suffix of it. -/
theorem retained_suffix (a : Bytes) : retained a <:+ a := by
  unfold retained
  split
  · rename_i h
    obtain ⟨ys, rfl⟩ := List.getLast?_eq_some_iff.mp h
    exact List.suffix_append ys [HDR0]
  · exact List.nil_suffix

/-- R178: `parse` ends in exactly the first of these ways whose conditions hold. In every way in
which bytes of the frame are read, `p + 8 + msgLen <= len(ACC)`: all reads are inside `ACC`. -/
theorem parse_cases (cfg : Config) (a : Bytes) :
    (findMarker a = none ∧ parse cfg a = (Result.failed .noMessage, retained a)) ∨
    (∃ p, findMarker a = some p ∧
      (a.length < p + 8 ∨ a.length < p + 8 + msgLenAt a p) ∧
      parse cfg a = (Result.failed .noMessage, a)) ∨
    (∃ p, findMarker a = some p ∧ p + 8 + msgLenAt a p ≤ a.length ∧
      trailerAt a (p + 6 + msgLenAt a p) = false ∧
      parse cfg a = (Result.failed .framingError, resync a p)) ∨
    (∃ p, findMarker a = some p ∧ p + 8 + msgLenAt a p ≤ a.length ∧
      trailerAt a (p + 6 + msgLenAt a p) = true ∧ parse cfg a = openFrame cfg a p) := by
  unfold parse
  split
  · exact .inl ⟨‹_›, rfl⟩
  · rename_i p hp
    have hb := findMarker_bound hp
    by_cases h8 : a.length - p < 8
    · exact .inr (.inl ⟨p, hp, .inl (by omega), by simp [h8]⟩)
    · by_cases ht : a.length < p + 6 + msgLenAt a p + 2
      · exact .inr (.inl ⟨p, hp, .inr (by omega), by simp [h8, ht]⟩)
      · cases htr : trailerAt a (p + 6 + msgLenAt a p) with
        | false => exact .inr (.inr (.inl ⟨p, hp, by omega, htr, by simp [h8, ht, htr]⟩))
        | true => exact .inr (.inr (.inr ⟨p, hp, by omega, htr, by simp [h8, ht, htr]⟩))

/-- R145 to R149: what happens to a frame whose trailer has matched. -/
theorem openFrame_cases (cfg : Config) (a : Bytes) (p : Nat) :
    (msgLenAt a p < 4 ∧ openFrame cfg a p = (Result.failed .corruptShort, resync a p)) ∨
    (4 ≤ msgLenAt a p ∧ openFrame cfg a p = (Result.failed .corruptCrc, resync a p)) ∨
    (4 ≤ msgLenAt a p ∧ ∃ m, openFrame cfg a p =
      (Result.okValue (.message m), consume a (p + 8 + msgLenAt a p))) := by
  unfold openFrame
  by_cases h4 : msgLenAt a p < 4
  · exact .inl ⟨h4, by simp [h4]⟩
  · refine .inr ?_
    simp only [h4, if_false]
    split
    · exact .inl ⟨by omega, rfl⟩
    · exact .inr ⟨by omega, _, rfl⟩

/-- R23, R24: `DEC` leaves a suffix of the accumulator. -/
theorem parse_suffix (cfg : Config) (a : Bytes) : (parse cfg a).2 <:+ a := by
  rcases parse_cases cfg a with ⟨_, h⟩ | ⟨p, _, _, h⟩ | ⟨p, _, _, _, h⟩ | ⟨p, _, _, _, h⟩
  · rw [h]; exact retained_suffix a
  · rw [h]
  · rw [h]; exact consume_suffix a _
  · rw [h]
    rcases openFrame_cases cfg a p with ⟨_, h⟩ | ⟨_, h⟩ | ⟨_, m, h⟩ <;> rw [h] <;>
      exact consume_suffix a _

/-- R73, R74: the records `DEC` returns. -/
theorem parse_record (cfg : Config) (a : Bytes) :
    (∃ m, (parse cfg a).1 = Result.okValue (.message m)) ∨
    ∃ st, (parse cfg a).1 = Result.failed st ∧
      (st = .noMessage ∨ st = .framingError ∨ st = .corruptShort ∨ st = .corruptCrc) := by
  rcases parse_cases cfg a with ⟨_, h⟩ | ⟨p, _, _, h⟩ | ⟨p, _, _, _, h⟩ | ⟨p, _, _, _, h⟩
  · exact .inr ⟨_, by rw [h], by simp⟩
  · exact .inr ⟨_, by rw [h], by simp⟩
  · exact .inr ⟨_, by rw [h], by simp⟩
  · rcases openFrame_cases cfg a p with ⟨_, h'⟩ | ⟨_, h'⟩ | ⟨_, m, h'⟩ <;> rw [h, h']
    · exact .inr ⟨_, rfl, by simp⟩
    · exact .inr ⟨_, rfl, by simp⟩
    · exact .inl ⟨m, rfl⟩

end Sys2Proof.Machine
end

