-- ==== Sys2Proof/Laws/PerInstr.lean ====
section
/-! SUPPORT. Statements about every operation as syntax, one lemma per constructor. The family
`EncodesToItsRow`: the command word of an encoded operation is the one its row of
`opcode_table.json` matches, by `(CW & mask) == match`. -/

namespace Sys2Proof.Laws.EncodesToItsRow

/-- The mask and match of an operation's row, copied from `opcode_table.json`. -/
def row : Instr → U16 × U16
  | .crcClr => (0xFFFF#16, 0x0000#16)
  | .crcUpd _ => (0xFF00#16, 0x0100#16)
  | .crcRd => (0xFFFF#16, 0x0200#16)
  | .xorClr => (0xFFFF#16, 0x1000#16)
  | .xorByte _ => (0xFF00#16, 0x1100#16)
  | .xorRd => (0xFFFF#16, 0x1200#16)
  | .enc _ _ => (0xFFFF#16, 0x2000#16)
  | .accClr => (0xFFFF#16, 0x3000#16)
  | .accPush _ => (0xFFFF#16, 0x3100#16)
  | .accLen => (0xFFFF#16, 0x3200#16)
  | .dec => (0xFFFF#16, 0x3300#16)

/-- R70, R71: the encoded command word matches the row. -/
def Statement (i : Instr) : Prop := (encode i).cw &&& (row i).1 = (row i).2

/-- The mask of format B keeps `op` and drops the operand byte. -/
theorem formatB_masked (op b : Byte) : cwOf op b &&& 0xFF00#16 = cwOf op 0x00#8 := by
  apply BitVec.eq_of_getLsbD_eq
  intro i h
  simp only [cwOf, BitVec.getLsbD_and, BitVec.getLsbD_append]
  by_cases h8 : i < 8
  · have : (0xFF00#16).getLsbD i = false := by
      interval_cases i <;> rfl
    simp [h8, this]
  · have : (0xFF00#16).getLsbD i = true := by
      interval_cases i <;> first | omega | rfl
    simp [h8, this]

theorem crcClr : Statement .crcClr := rfl
theorem crcUpd (b : Byte) : Statement (.crcUpd b) := formatB_masked opCrcUpd b
theorem crcRd : Statement .crcRd := rfl
theorem xorClr : Statement .xorClr := rfl
theorem xorByte (b : Byte) : Statement (.xorByte b) := formatB_masked opXorByte b
theorem xorRd : Statement .xorRd := rfl
theorem enc (type : U16) (payload : Bytes) : Statement (.enc type payload) :=
  show cwOf opEnc 0x00#8 &&& 0xFFFF#16 = 0x2000#16 by decide
theorem accClr : Statement .accClr := rfl
theorem accPush (chunk : Bytes) : Statement (.accPush chunk) :=
  show cwOf opAccPush 0x00#8 &&& 0xFFFF#16 = 0x3100#16 by decide
theorem accLen : Statement .accLen := rfl
theorem dec : Statement .dec := rfl

end Sys2Proof.Laws.EncodesToItsRow
end

