-- ==== Sys2Proof/Laws/Serializer.lean ====
section
/-! SUPPORT. The lengths of R121 to R125. -/

namespace Sys2Proof.Machine

/-- R121: `msgLen` is even, at least 4, and at most one more than `dataLen`. -/
theorem msgLenOf_bounds (plen : Nat) :
    msgLenOf plen % 2 = 0 ∧ 4 + plen ≤ msgLenOf plen ∧ msgLenOf plen ≤ 5 + plen := by
  unfold msgLenOf dataLenOf
  omega

theorem length_padOf (plen : Nat) : (padOf plen).length = dataLenOf plen % 2 := by
  unfold padOf
  split <;> simp <;> omega

/-- R122: `len(body) = msgLen`. -/
theorem length_bodyOf (type : U16) (payload : Bytes) :
    (bodyOf type payload).length = msgLenOf payload.length := by
  simp [bodyOf, length_padOf, msgLenOf, dataLenOf]
  omega

/-- R124: the region has `msgLen + 2` bytes. -/
theorem length_regionOf (cfg : Config) (type : U16) (payload : Bytes) :
    (regionOf cfg type payload).length = msgLenOf payload.length + 2 := by
  simp [regionOf, obf, length_bodyOf]

/-- R126, R127: the two ways `ENC` ends. -/
theorem serialize_cases (cfg : Config) (type : U16) (payload : Bytes) :
    (payload.length ≤ cfg.maxPayload ∧
      serialize cfg type payload = Result.okValue (.packet (packetOf cfg type payload))) ∨
    (cfg.maxPayload < payload.length ∧
      serialize cfg type payload = Result.failed .badOperand) := by
  unfold serialize
  split <;> simp <;> omega

end Sys2Proof.Machine
end

