-- ==== Sys2Proof/Laws/Run.lean ====
section
/-! SUPPORT. Records, Messages and pushed bytes of a run in parts (R31, R50, R74). -/

namespace Sys2Proof.Machine

@[simp] theorem resultsOf_append (l m : List (Agent × Result)) :
    resultsOf (l ++ m) = resultsOf l ++ resultsOf m := List.map_append

@[simp] theorem messagesOf_append (l m : List Result) :
    messagesOf (l ++ m) = messagesOf l ++ messagesOf m := by
  induction l with
  | nil => rfl
  | cons r rs ih => rcases r with ⟨_ | _, _ | _ | _⟩ <;> simp_all [messagesOf]

/-- R74: a Message comes from `DEC` only, and only with `OK`. -/
theorem messagesOf_resultOf {cfg : Config} {i : Instr} (h : i ≠ .dec) (s : State) :
    messagesOf [resultOf cfg i s] = [] := by
  cases i <;> first | exact absurd rfl h | simp [resultOf, Result.done, Result.okValue, messagesOf]
  · rcases serialize_cases cfg _ _ with ⟨_, e⟩ | ⟨_, e⟩ <;> rw [e] <;> rfl
  · split <;> rfl

end Sys2Proof.Machine

namespace Sys2Proof.Safety

open Sys2Proof.Machine

@[simp] theorem pushedBytes_append (is js : List Instr) :
    pushedBytes (is ++ js) = pushedBytes is ++ pushedBytes js := by
  induction is with
  | nil => rfl
  | cons i is ih => cases i <;> simp [pushedBytes, ih]

/-- R47: only `ACC.PUSH` brings bytes. -/
theorem pushedBytes_singleton {i : Instr} (h : ∀ chunk, i ≠ .accPush chunk) : pushedBytes [i] = [] := by
  cases i <;> first | rfl | exact absurd rfl (h _)

end Sys2Proof.Safety
end

