-- ==== Sys2Proof/Tests/Slice0.lean ====
section
/-! SUPPORT. Tests. The expected words and values are the spec's own (95_test_vectors.md V1 to V52 and
the examples of the rules; the encodings of R71), written out by hand. Then a witness for every
statement that has hypotheses: a state and operands that meet all of them together. -/

open Sys2Proof Sys2Proof.Machine Sys2Proof.Safety

namespace Sys2Proof.Tests

/-! ## WellFormed: an ill-formed term for each check -/

theorem test_wf_refuses_long_payload :
    (Instr.enc 0x0000#16 (List.replicate 65536 0x00#8)).wf = false := by
  rw [Instr.wf, List.length_replicate]
  decide

theorem test_wf_refuses_long_chunk : (Instr.accPush (List.replicate 65536 0x00#8)).wf = false := by
  rw [Instr.wf, List.length_replicate]
  decide

/-! ## Decoding: the table's words (R71), illegal words (V51), operand mismatches -/

theorem test_decode_crcClr : decode ⟨0b0000000000000000#16, []⟩ = .instr .crcClr := by decide
theorem test_decode_crcUpd : decode ⟨0b0000000111111111#16, []⟩ = .instr (.crcUpd 0xFF#8) := by decide
theorem test_decode_crcRd : decode ⟨0b0000001000000000#16, []⟩ = .instr .crcRd := by decide
theorem test_decode_xorClr : decode ⟨0b0001000000000000#16, []⟩ = .instr .xorClr := by decide
theorem test_decode_xorByte : decode ⟨0b0001000100110100#16, []⟩ = .instr (.xorByte 0x34#8) := by decide
theorem test_decode_xorRd : decode ⟨0b0001001000000000#16, []⟩ = .instr .xorRd := by decide
theorem test_decode_enc :
    decode ⟨0b0010000000000000#16, [.u16 0x1234#16, .u16 0x0001#16, .bytes [0x55#8]]⟩ =
      .instr (.enc 0x1234#16 [0x55#8]) := by decide
theorem test_decode_accClr : decode ⟨0b0011000000000000#16, []⟩ = .instr .accClr := by decide
theorem test_decode_accPush :
    decode ⟨0b0011000100000000#16, [.u16 0x0003#16, .bytes [0xAB#8, 0xCD#8, 0x06#8]]⟩ =
      .instr (.accPush [0xAB#8, 0xCD#8, 0x06#8]) := by decide
theorem test_decode_accLen : decode ⟨0b0011001000000000#16, []⟩ = .instr .accLen := by decide
theorem test_decode_dec : decode ⟨0b0011001100000000#16, []⟩ = .instr .dec := by decide

theorem test_decode_illegal_words :
    [0x0001#16, 0x0201#16, 0x0300#16, 0x1001#16, 0x1300#16, 0x2001#16, 0x2100#16, 0x3001#16,
      0x3101#16, 0x3201#16, 0x3301#16, 0x3400#16, 0xFF00#16, 0xFFFF#16].all
      (fun cw => decide (decode ⟨cw, []⟩ = .illegalOp)) = true := by decide

/-- R72: 245 of the 256 operation codes are illegal. -/
theorem test_decode_counts_illegal_codes :
    ((List.range 256).filter fun op =>
      decide (decode ⟨BitVec.ofNat 16 (256 * op), []⟩ = .illegalOp)).length = 245 := by
  decide +kernel

theorem test_decode_refuses_wrong_plen :
    decode ⟨0x2000#16, [.u16 0x1234#16, .u16 0x0002#16, .bytes [0x55#8]]⟩ = .operandsNotOfFormat := by
  decide

theorem test_encode_accPush : encode (.accPush [0x00#8, 0xAB#8]) =
    ⟨0x3100#16, [.u16 0x0002#16, .bytes [0x00#8, 0xAB#8]]⟩ := by decide

theorem test_table_words :
    [0x0000, 0x0100, 0x0200, 0x1000, 0x1100, 0x1200, 0x2000, 0x3000, 0x3100, 0x3200, 0x3300].map
      (decodeTableWord 16) =
    [some .crcClr, some (.crcUpd 0x00#8), some .crcRd, some .xorClr, some (.xorByte 0x00#8),
      some .xorRd, some (.enc 0x0000#16 []), some .accClr, some (.accPush []), some .accLen,
      some .dec] := by decide

theorem test_table_word_illegal : decodeTableWord 16 0x0300 = none := by decide

/-! ## Steps -/

/-- A state with the given accumulator and nothing else. -/
def withAcc (a : Bytes) : State := { State.reset with acc := a }

theorem test_step_runs_first_word :
    step (State.reset.withFetchWord 16 0x0131) =
      .next { State.reset with crc := 0x2672#16, returned := [(.host 0, ⟨.ok, none⟩)] } := rfl

theorem test_step_illegal_word :
    step (State.reset.withFetchWord 16 0x0300) =
      .next { State.reset with returned := [(.host 0, ⟨.illegalOp, none⟩)] } := rfl

theorem test_step_reset_event :
    step { withAcc [0xAB#8] with crc := 0xBEEF#16, kidx := 5#4, presented := [.reset] } =
      .next State.reset := rfl

/-! ## U_CRC (V2, V6, V11, V12, V15h, V15o, V16) -/

theorem test_crc16_step : crc16Step 0x0000#16 0x01#8 = 0x1021#16 ∧
    crc16Step 0x0000#16 0x10#8 = 0x1231#16 ∧ crc16Step 0xFFFF#16 0x00#8 = 0xE1F0#16 ∧
    crc16Step 0x8000#16 0x00#8 = 0x9188#16 := by decide +kernel

theorem test_crc16_check_value :
    crc16 [0x31#8, 0x32#8, 0x33#8, 0x34#8, 0x35#8, 0x36#8, 0x37#8, 0x38#8, 0x39#8] = 0x31C3#16 := by
  decide +kernel

theorem test_crc16_wire_order_residue :
    crc16 [0x34#8, 0x12#8, 0x01#8, 0x00#8, 0x55#8, 0x00#8, 0x0A#8, 0xEE#8] = 0x61DC#16 := by
  decide +kernel

theorem test_crcClr_V16a : (perform zeroKeyConfig .crcClr { State.reset with crc := 0x31C3#16 }).crc =
    0x0000#16 := by decide
theorem test_crcUpd_V16c : (perform zeroKeyConfig (.crcUpd 0x32#8)
    { State.reset with crc := 0x2672#16 }).crc = 0x20B5#16 := by decide +kernel
theorem test_crcRd_V16d : (perform zeroKeyConfig .crcRd { State.reset with crc := 0x20B5#16 }).returned =
    [(.host 0, ⟨.ok, some (.u16 0x20B5#16)⟩)] := by decide

/-! ## U_XOR (V17e, V19, V20); the candidate key G1 is only a test key -/

/-- The vectors' key `KC` (93_implementation_defined.md G1, from outside the source). -/
def candidateKeyConfig : Config :=
  { zeroKeyConfig with
    key := #v[0x16#8, 0x6C#8, 0x14#8, 0xE6#8, 0x2E#8, 0x91#8, 0x0D#8, 0x40#8, 0x21#8, 0x35#8, 0xD5#8,
      0x40#8, 0x13#8, 0x03#8, 0xE9#8, 0x80#8] }

theorem test_obf_V17e :
    obf candidateKeyConfig [0x00#8, 0x01#8, 0x02#8, 0x03#8, 0x04#8, 0x05#8, 0x06#8, 0x07#8, 0x08#8,
      0x09#8, 0x0A#8, 0x0B#8, 0x0C#8, 0x0D#8, 0x0E#8, 0x0F#8, 0x10#8, 0x11#8] =
    [0x16#8, 0x6D#8, 0x16#8, 0xE5#8, 0x2A#8, 0x94#8, 0x0B#8, 0x47#8, 0x29#8, 0x3C#8, 0xDF#8, 0x4B#8,
      0x1F#8, 0x0E#8, 0xE7#8, 0x8F#8, 0x06#8, 0x7D#8] := by decide +kernel

theorem test_obf_misaligned_V19 :
    obfFrom candidateKeyConfig 1 [0x34#8, 0x12#8, 0x01#8, 0x00#8, 0x55#8, 0x00#8, 0x0A#8, 0xEE#8] =
      [0x58#8, 0x06#8, 0xE7#8, 0x2E#8, 0xC4#8, 0x0D#8, 0x4A#8, 0xCF#8] := by decide +kernel

theorem test_xorClr_V20a : (perform zeroKeyConfig .xorClr { State.reset with kidx := 7#4 }).kidx = 0#4 := by
  decide
theorem test_xorByte_V20f :
    perform candidateKeyConfig (.xorByte 0xFF#8) { State.reset with kidx := 15#4 } =
      { State.reset with kidx := 0#4, returned := [(.host 0, ⟨.ok, some (.byte 0x7F#8)⟩)] } := by
  decide +kernel
theorem test_xorByte_V20e : (perform candidateKeyConfig (.xorByte 0x12#8)
    { State.reset with kidx := 1#4 }).returned = [(.host 0, ⟨.ok, some (.byte 0x7E#8)⟩)] := by
  decide +kernel
theorem test_xorRd_V20g : (perform zeroKeyConfig .xorRd { State.reset with kidx := 3#4 }).returned =
    [(.host 0, ⟨.ok, some (.index 3#4)⟩)] := by decide

/-! ## ENC (V26 under the candidate key, V29a's lengths, V29c) -/

theorem test_enc_V26 : serialize candidateKeyConfig 0xBEEF#16 [0x01#8, 0x02#8, 0x03#8] =
    ⟨.ok, some (.packet [0xAB#8, 0xCD#8, 0x08#8, 0x00#8, 0xF9#8, 0xD2#8, 0x17#8, 0xE6#8, 0x2F#8, 0x93#8,
      0x0E#8, 0x40#8, 0x41#8, 0xDF#8, 0xDC#8, 0xBA#8])⟩ := by decide +kernel

theorem test_enc_lengths : msgLenOf 65530 = 65534 ∧ msgLenOf 65529 = 65534 ∧ msgLenOf 0 = 4 := by
  decide

theorem test_enc_V29c :
    serialize zeroKeyConfig 0x1234#16 (List.replicate 65531 0x00#8) = ⟨.badOperand, none⟩ := by
  rw [serialize, List.length_replicate]
  rfl

/-! ## The accumulator (V49 with `ACC_CAP = 16`) -/

/-- The configuration of V49 and V50. -/
def cap16 : Config := { zeroKeyConfig with accCap := some 16 }

/-- V24: the packet `f1` under the all-zero key. -/
def f1 : Bytes := [0xAB#8, 0xCD#8, 0x06#8, 0x00#8, 0x34#8, 0x12#8, 0x01#8, 0x00#8, 0x55#8, 0x00#8,
  0x0A#8, 0xEE#8, 0xDC#8, 0xBA#8]

/-- V25: the packet `f2` under the all-zero key. -/
def f2 : Bytes := [0xAB#8, 0xCD#8, 0x06#8, 0x00#8, 0x01#8, 0x00#8, 0x02#8, 0x00#8, 0xDE#8, 0xAD#8,
  0xA7#8, 0xFA#8, 0xDC#8, 0xBA#8]

/-- V24's Message. -/
def m1 : Message := ⟨0x1234#16, 0x0001#16, [0x55#8, 0x00#8], [0x55#8]⟩

theorem test_accPush_V49_full : perform cap16 (.accPush [0x01#8, 0x02#8, 0x03#8]) (withAcc f1) =
    { withAcc f1 with returned := [(.host 0, ⟨.accFull, none⟩)] } := by decide
theorem test_accPush_V49_fits : (perform cap16 (.accPush [0x01#8, 0x02#8]) (withAcc f1)).acc =
    f1 ++ [0x01#8, 0x02#8] := by decide
theorem test_accClr : (perform cap16 .accClr (withAcc f1)).acc = [] := by decide
theorem test_accLen : (perform cap16 .accLen (withAcc f1)).returned =
    [(.host 0, ⟨.ok, some (.length 14)⟩)] := by decide

/-! ## DEC (V30, V34, V35, V36, V38, V39, V44, V47) -/

theorem test_dec_V30 : parse zeroKeyConfig ([0x00#8, 0xAB#8, 0x11#8] ++ f1 ++ [0x22#8, 0xAB#8]) =
    (⟨.ok, some (.message m1)⟩, [0x22#8, 0xAB#8]) := by decide +kernel

theorem test_dec_statuses :
    (parse zeroKeyConfig [0x5A#8, 0xAB#8] = (⟨.noMessage, none⟩, [0xAB#8])) ∧
    (parse zeroKeyConfig [0xAB#8, 0xCD#8, 0x00#8, 0x00#8, 0x99#8, 0x99#8, 0x77#8, 0x77#8] =
      (⟨.framingError, none⟩, [0x00#8, 0x00#8, 0x99#8, 0x99#8, 0x77#8, 0x77#8])) ∧
    (parse zeroKeyConfig (f1.set 8 0x54#8) = (⟨.corruptCrc, none⟩, (f1.set 8 0x54#8).drop 2)) ∧
    (parse zeroKeyConfig [0xAB#8, 0xCD#8, 0x00#8, 0x00#8, 0x00#8, 0x00#8, 0xDC#8, 0xBA#8] =
      (⟨.corruptShort, none⟩, [0x00#8, 0x00#8, 0x00#8, 0x00#8, 0xDC#8, 0xBA#8])) := by
  decide +kernel

theorem test_dec_V39_clamped : parse zeroKeyConfig [0xAB#8, 0xCD#8, 0x06#8, 0x00#8, 0x34#8, 0x12#8, 0x09#8,
    0x00#8, 0xAA#8, 0xBB#8, 0x86#8, 0x7E#8, 0xDC#8, 0xBA#8] =
    (⟨.ok, some (.message ⟨0x1234#16, 9#16, [0xAA#8, 0xBB#8], [0xAA#8, 0xBB#8]⟩)⟩, []) := by
  decide +kernel

theorem test_dec_V39_odd_msgLen : parse zeroKeyConfig [0xAB#8, 0xCD#8, 0x05#8, 0x00#8, 0x34#8, 0x12#8,
    0x01#8, 0x00#8, 0x55#8, 0x47#8, 0x4E#8, 0xDC#8, 0xBA#8] =
    (⟨.ok, some (.message ⟨0x1234#16, 1#16, [0x55#8], [0x55#8]⟩)⟩, []) := by decide +kernel

theorem test_dec_V44_waits : parse zeroKeyConfig [0xAB#8, 0xCD#8, 0xFF#8, 0xFF#8, 0x01#8, 0x02#8, 0x03#8,
    0x04#8, 0x05#8, 0x06#8] = (⟨.noMessage, none⟩, [0xAB#8, 0xCD#8, 0xFF#8, 0xFF#8, 0x01#8, 0x02#8,
    0x03#8, 0x04#8, 0x05#8, 0x06#8]) := by decide +kernel

theorem test_dec_V47_priority : (parse zeroKeyConfig ((f1.set 8 0x54#8).set 13 0xBB#8)).1 =
    ⟨.framingError, none⟩ := by decide +kernel

/-- V36 with `CRC_CHECK` false: the corrupted Message is delivered. -/
theorem test_dec_V36_unchecked : parse { zeroKeyConfig with crcCheck := false } (f1.set 8 0x54#8) =
    (⟨.ok, some (.message ⟨0x1234#16, 1#16, [0x54#8, 0x00#8], [0x54#8]⟩)⟩, []) := by decide +kernel

/-- P4: `DEC.ALL` over a false marker, a corrupted frame and a good frame. -/
theorem test_decAll_P4 : decAllMessages zeroKeyConfig (withAcc ([0xAB#8, 0xCD#8, 0x00#8, 0x00#8, 0x99#8, 0x99#8,
    0x77#8, 0x77#8] ++ f1.set 8 0x54#8 ++ f2)) =
    [⟨0x0001#16, 2#16, [0xDE#8, 0xAD#8], [0xDE#8, 0xAD#8]⟩] := by decide +kernel

/-! ## Witnesses: for each statement with hypotheses, values that meet all of them together. Where a
hypothesis is about the hardware's open key, the region is made with that key. -/

/-- `NoMarker` of a short sequence, by its indices. -/
theorem noMarker_garbage : NoMarker [0x00#8, 0xAB#8, 0x11#8] := by
  intro k
  rcases k with _ | _ | _ | k <;> simp

theorem noMarker_nil : NoMarker [] := by
  intro k
  simp

theorem witness_DecodeInvertsEncode :
    (Instr.crcUpd 0xFF#8).wf = true ∧ (Instr.enc 0xFFFF#16 (List.replicate 65535 0xAB#8)).wf = true ∧
    (Instr.accPush []).wf = true := by
  refine ⟨rfl, ?_, rfl⟩
  rw [Instr.wf, List.length_replicate]
  decide

theorem witness_EncodeInvertsDecode :
    decode ⟨0x3100#16, [.u16 0x0001#16, .bytes [0xAB#8]]⟩ = .instr (.accPush [0xAB#8]) := by decide

/-- A state in which agent `writer 0` presents the given command. -/
def presenting (c : Command) : State := State.reset.present (.writer 0) c

theorem witness_IllegalWordsChangeNothing :
    (presenting ⟨0x2001#16, [.u16 0#16]⟩).presented =
      .operation (.writer 0) ⟨0x2001#16, [.u16 0#16]⟩ :: [] ∧
    decode ⟨0x2001#16, [.u16 0#16]⟩ = .illegalOp ∧ decode ⟨0x0300#16, []⟩ = .illegalOp := by decide

theorem witness_StepRunsPresentedOperation :
    (presenting ⟨0x0131#16, []⟩).presented = .operation (.writer 0) ⟨0x0131#16, []⟩ :: [] ∧
    decode ⟨0x0131#16, []⟩ = .instr (.crcUpd 0x31#8) := by decide

theorem witness_StepIdlesAndResets :
    State.reset.presented = [] ∧
    ({ withAcc f1 with presented := [.reset] } : State).presented = .reset :: [] := by decide

theorem witness_StepStopsOnlyOnMalformedOperands :
    step (presenting ⟨0x3100#16, [.u16 2#16, .bytes [0xAB#8]]⟩) =
      .refused (.operandsNotOfFormat 0x3100#16) := rfl

theorem witness_EachAgentAnsweredInItsOwnOrder :
    step (presenting ⟨0x0200#16, []⟩) =
      .next { State.reset with
        presenter := .writer 0, returned := [(.writer 0, ⟨.ok, some (.u16 0#16)⟩)] } := rfl

theorem witness_RunPerformsPresentedList :
    (∀ p ∈ [(Agent.writer 0, Instr.accPush [0xAB#8]), (Agent.host 0, Instr.dec)], p.2.wf = true) ∧
    ({ State.reset with presented :=
        [.operation (.writer 0) ⟨0x3100#16, [.u16 1#16, .bytes [0xAB#8]]⟩,
          .operation (.host 0) ⟨0x3300#16, []⟩] } : State).presented =
      [(Agent.writer 0, Instr.accPush [0xAB#8]), (Agent.host 0, Instr.dec)].map
        (fun p => Event.operation p.1 (encode p.2)) := by decide

/-- Each status code of R73 is returned by some operation. -/
theorem witness_StatusesByOperation :
    (resultOf zeroKeyConfig .dec (withAcc [])).status.code = 1#3 ∧
    (resultOf zeroKeyConfig .dec (withAcc (f1.set 13 0xBB#8))).status.code = 2#3 ∧
    (resultOf zeroKeyConfig .dec (withAcc (f1.set 8 0x54#8))).status.code = 3#3 ∧
    (resultOf zeroKeyConfig .dec
      (withAcc [0xAB#8, 0xCD#8, 0#8, 0#8, 0#8, 0#8, 0xDC#8, 0xBA#8])).status.code = 4#3 ∧
    (resultOf { zeroKeyConfig with maxPayload := 0 } (.enc 0#16 [0#8]) (withAcc [])).status.code = 5#3 ∧
    (resultOf cap16 (.accPush [0#8, 0#8, 0#8]) (withAcc f1)).status.code = 6#3 := by decide +kernel

theorem witness_EveryOperationCompletesWithOneRecord :
    resultOf cap16 (.accPush [0#8, 0#8, 0#8]) (withAcc f1) = ⟨.accFull, none⟩ ∧
    resultOf cap16 .accLen (withAcc f1) = ⟨.ok, some (.length 14)⟩ := by decide

theorem witness_CrcTableFormLinearityAndZeros :
    ([0x31#8, 0x32#8] : Bytes).length = ([0xFF#8, 0x00#8] : Bytes).length := by decide

theorem witness_CrcDetectsSingleBitFlip :
    (1 : Nat) < ([0x31#8, 0x32#8] : Bytes).length ∧ (7 : Nat) < 8 ∧
    flipBit [0x31#8, 0x32#8] 1 7 = [0x31#8, 0xB2#8] := by decide

theorem witness_XorByteUsesIndexAndAdvances :
    ({ State.reset with kidx := 15#4 } : State).kidx = 15#4 := by decide

theorem witness_XorRdReturnsIndex : (List.replicate 17 0x5A#8 : Bytes).length = 17 := by decide

theorem witness_ObfuscationBytewise :
    zeroKeyConfig.key = Vector.replicate 16 0x00#8 ∧ (16 : Nat) < (List.replicate 17 0x5A#8 : Bytes).length := by
  decide

/-- The boundary payloads 0, 65530 (accepted) and 65531 (refused). -/
theorem witness_EncReturnsPacket :
    ([] : Bytes).length ≤ 65530 ∧ (List.replicate 65530 0x00#8 : Bytes).length ≤ 65530 ∧
    65530 < (List.replicate 65531 0x00#8 : Bytes).length ∧
    (List.replicate 65531 0x00#8 : Bytes).length < 65536 := by
  simp only [List.length_replicate]
  decide

theorem witness_PacketShape : zeroKeyConfig.maxPayload ≤ 65530 ∧
    serialize zeroKeyConfig 0x1234#16 [0x55#8] = ⟨.ok, some (.packet f1)⟩ := by decide +kernel

theorem witness_EncIsInjective : zeroKeyConfig.maxPayload ≤ 65530 ∧
    serialize zeroKeyConfig 0x0001#16 [0xDE#8, 0xAD#8] = ⟨.ok, some (.packet f2)⟩ := by decide +kernel

theorem witness_PacketUnderKeyIsMaskedZeroKeyPacket :
    serialize candidateKeyConfig 0x1234#16 [0x55#8] = ⟨.ok, some (.packet [0xAB#8, 0xCD#8, 0x06#8, 0x00#8,
      0x22#8, 0x7E#8, 0x15#8, 0xE6#8, 0x7B#8, 0x91#8, 0x07#8, 0xAE#8, 0xDC#8, 0xBA#8])⟩ ∧
    serialize { candidateKeyConfig with key := Vector.replicate 16 0x00#8 } 0x1234#16 [0x55#8] =
      ⟨.ok, some (.packet f1)⟩ := by decide +kernel

/-- The capacity of the hardware is open, so of it only the empty chunk is known to fit; the clauses
over every configuration are met at the boundary of `ACC_CAP = 16`. -/
theorem witness_AccPushAppendsWholeChunkOrNothing :
    ([0xAB#8, 0xCD#8] : Bytes).length < 65536 ∧
    withinCap hardware (State.reset.acc.length + ([] : Bytes).length) = true ∧
    (∀ cap, cap16.accCap = some cap → (withAcc f1).acc.length + ([1#8, 2#8] : Bytes).length ≤ cap) ∧
    cap16.accCap = some 16 ∧ 16 < (withAcc f1).acc.length + ([1#8, 2#8, 3#8] : Bytes).length := by
  refine ⟨by decide, ?_, ?_, rfl, by decide⟩
  · simp only [State.reset, List.length_nil, Nat.add_zero, withinCap]
    split <;> simp
  · intro cap h
    cases h
    decide

theorem witness_ChunkBoundariesCarryNoMeaning :
    withinCap cap16 (State.reset.acc.length + [[0xAB#8, 0xCD#8], [], f1].flatten.length) = true := by
  decide

theorem witness_AccLenReturnsLength : AccWithinCap cap16 (withAcc f1) ∧ cap16.accCap = some 16 ∧
    (perform cap16 .accLen (withAcc f1)).returned =
      (withAcc f1).returned ++ [((withAcc f1).presenter, ⟨.ok, some (.length 14)⟩)] :=
  ⟨rfl, rfl, rfl⟩

theorem witness_AccumulatorByteFrame :
    Instr.crcRd ≠ .accClr ∧ Instr.crcRd ≠ .dec ∧ (∀ chunk, Instr.crcRd ≠ .accPush chunk) ∧
    withinCap cap16 ((withAcc f1).acc.length + ([1#8, 2#8] : Bytes).length) = true ∧
    withinCap cap16 ((withAcc f1).acc.length + ([1#8, 2#8, 3#8] : Bytes).length) = false := by
  exact ⟨by decide, by decide, by simp, by decide, by decide⟩

theorem witness_MarkerSearchFindsFirstMatch :
    findMarker [0xAB#8, 0xAB#8, 0xCD#8] = some 1 ∧ findMarker [0xCD#8, 0xAB#8] = none := by decide

theorem witness_DecWithoutMarkerKeepsTrailingAB :
    NoMarker (withAcc [0x00#8, 0xAB#8, 0x11#8]).acc ∧ NoMarker (withAcc []).acc :=
  ⟨noMarker_garbage, noMarker_nil⟩

/-- Seven bytes from the marker; and thirteen of a frame's fourteen. -/
theorem witness_DecWaitsForWholeFrame :
    PartialFrameIn (withAcc ([0x00#8, 0xAB#8, 0x11#8] ++ f1.take 7)).acc ∧
    PartialFrameIn (withAcc (f1.take 13)).acc :=
  ⟨⟨[0x00#8, 0xAB#8, 0x11#8], [0x06#8, 0x00#8, 0x34#8, 0x12#8, 0x01#8], by decide, noMarker_garbage,
      .inl (by decide)⟩,
    ⟨[], (f1.take 13).drop 2, by decide, noMarker_nil,
      .inr ⟨0x06#8, 0x00#8, (f1.take 13).drop 4, by decide, by decide⟩⟩⟩

theorem witness_DecTrailerMismatchResynchronises :
    FrameIn (withAcc ([0x00#8, 0xAB#8, 0x11#8] ++ f1.set 13 0xBB#8 ++ [0x22#8])).acc
      [0x00#8, 0xAB#8, 0x11#8] 6 (slice f1 4 12) 0xDC#8 0xBB#8 [0x22#8] ∧
    (0xDC#8 ≠ 0xDC#8 ∨ 0xBB#8 ≠ 0xBA#8) :=
  ⟨⟨by decide, noMarker_garbage, by decide, by decide⟩, by decide⟩

/-- The two ends of the range of short lengths, 0 and 3. -/
theorem witness_DecShortBodyResynchronises :
    (FrameIn (withAcc [0xAB#8, 0xCD#8, 0#8, 0#8, 0#8, 0#8, 0xDC#8, 0xBA#8]).acc [] 0 [0#8, 0#8]
      0xDC#8 0xBA#8 [] ∧ 0 < 4) ∧
    (FrameIn (withAcc [0xAB#8, 0xCD#8, 3#8, 0#8, 1#8, 2#8, 3#8, 4#8, 5#8, 0xDC#8, 0xBA#8]).acc [] 3
      [1#8, 2#8, 3#8, 4#8, 5#8] 0xDC#8 0xBA#8 [] ∧ 3 < 4) :=
  ⟨⟨⟨by decide, noMarker_nil, by decide, by decide⟩, by decide⟩,
    ⟨⟨by decide, noMarker_nil, by decide, by decide⟩, by decide⟩⟩

/-- A body and CRC field under the hardware's open key. -/
def keyedFrame (region : Bytes) : Bytes :=
  [0xAB#8, 0xCD#8, 0x04#8, 0x00#8] ++ obf hardware region ++ [0xDC#8, 0xBA#8]

theorem keyedFrame_frameIn (b0 b1 b2 b3 b4 b5 : Byte) :
    FrameIn (withAcc (keyedFrame [b0, b1, b2, b3, b4, b5])).acc [] 4
      (obf hardware [b0, b1, b2, b3, b4, b5]) 0xDC#8 0xBA#8 [] :=
  ⟨rfl, noMarker_nil, by decide, rfl⟩

theorem keyedFrame_region (cfg : Config) (b0 b1 b2 b3 b4 b5 : Byte) :
    obf cfg (obf cfg [b0, b1, b2, b3, b4, b5]) = [b0, b1, b2, b3, b4, b5] := by
  simp [obf, obfFrom]

theorem witness_DecCrcMismatchResynchronises :
    (FrameIn (withAcc (keyedFrame [0x34#8, 0x12#8, 0#8, 0#8, 0#8, 0#8])).acc [] 4
        (obf hardware [0x34#8, 0x12#8, 0#8, 0#8, 0#8, 0#8]) 0xDC#8 0xBA#8 [] ∧ 4 ≤ 4 ∧
      obf hardware (obf hardware [0x34#8, 0x12#8, 0#8, 0#8, 0#8, 0#8]) =
        [0x34#8, 0x12#8, 0#8, 0#8] ++ bytesLe16 0#16 ∧
      crc16 [0x34#8, 0x12#8, 0#8, 0#8] ≠ 0#16) ∧
    (({ zeroKeyConfig with crcCheck := false } : Config).crcCheck = false ∧
      FrameIn (withAcc (f1.set 8 0x54#8)).acc [] 6 (slice (f1.set 8 0x54#8) 4 12) 0xDC#8 0xBA#8 [] ∧
      obf { zeroKeyConfig with crcCheck := false } (slice (f1.set 8 0x54#8) 4 12) =
        bytesLe16 0x1234#16 ++ bytesLe16 1#16 ++ [0x54#8, 0x00#8] ++ bytesLe16 0xEE0A#16) :=
  ⟨⟨keyedFrame_frameIn _ _ _ _ _ _, by decide, keyedFrame_region _ _ _ _ _ _ _, by decide +kernel⟩,
    rfl, ⟨by decide, noMarker_nil, by decide, by decide⟩, by decide +kernel⟩

/-- V23's frame, under the hardware's open key. -/
theorem witness_DecDeliversIntactFrame :
    FrameIn (withAcc (keyedFrame [0x34#8, 0x12#8, 0#8, 0#8, 0x1B#8, 0xCB#8])).acc [] 4
      (obf hardware [0x34#8, 0x12#8, 0#8, 0#8, 0x1B#8, 0xCB#8]) 0xDC#8 0xBA#8 [] ∧
    (let body := bytesLe16 0x1234#16 ++ bytesLe16 0#16 ++ []
     obf hardware (obf hardware [0x34#8, 0x12#8, 0#8, 0#8, 0x1B#8, 0xCB#8]) =
       body ++ bytesLe16 (crc16 body)) := by
  refine ⟨keyedFrame_frameIn _ _ _ _ _ _, ?_⟩
  rw [keyedFrame_region]
  decide +kernel

theorem witness_NoMessageCauseShowsInLength :
    exec .dec (withAcc [0xAB#8, 0xCD#8]) = .next { withAcc [0xAB#8, 0xCD#8] with
      returned := [(.host 0, ⟨.noMessage, none⟩)] } ∧
    exec .dec (withAcc [0x00#8, 0xAB#8]) = .next { withAcc [0xAB#8] with
      returned := [(.host 0, ⟨.noMessage, none⟩)] } := ⟨rfl, rfl⟩

theorem witness_DecMakesProgress :
    (perform zeroKeyConfig .dec (withAcc f1)).returned =
      (withAcc f1).returned ++ [((withAcc f1).presenter, ⟨.ok, some (.message m1)⟩)] ∧
    (perform zeroKeyConfig .dec (withAcc (f1.set 13 0xBB#8))).returned =
      [((withAcc f1).presenter, ⟨.framingError, none⟩)] := by decide +kernel

theorem witness_NoMessageIsRestingPoint :
    (perform zeroKeyConfig .dec (withAcc [0x00#8, 0xAB#8])).returned =
      (withAcc [0x00#8, 0xAB#8]).returned ++
        [((withAcc [0x00#8, 0xAB#8]).presenter, ⟨.noMessage, none⟩)] := by decide +kernel

theorem witness_EncodeThenDecodeRoundTrip : candidateKeyConfig.maxPayload ≤ 65530 ∧
    ([1#8, 2#8, 3#8] : Bytes).length ≤ candidateKeyConfig.maxPayload ∧ State.reset.acc = [] ∧
    withinCap candidateKeyConfig (8 + (4 + 3 + (4 + 3) % 2)) = true := by decide

/-- The stream and the chunks of P3 and P5, with `DEC`s between the pushes. -/
theorem witness_ResynchronisationDeliversExactlyOneMessage :
    zeroKeyConfig.maxPayload ≤ 65530 ∧
    serialize zeroKeyConfig 0x1234#16 [0x55#8] = ⟨.ok, some (.packet f1)⟩ ∧
    NoMarker [0x00#8, 0xAB#8, 0x11#8] ∧ NoMarker [0x22#8, 0xAB#8] ∧
    (∀ i ∈ [Instr.accPush ([0x00#8, 0xAB#8, 0x11#8] ++ f1.take 2), .dec, .accPush (f1.drop 2), .dec,
      .accPush [0x22#8, 0xAB#8]], isPushOrDec i = true) ∧
    pushedBytes [Instr.accPush ([0x00#8, 0xAB#8, 0x11#8] ++ f1.take 2), .dec, .accPush (f1.drop 2), .dec,
      .accPush [0x22#8, 0xAB#8]] = [0x00#8, 0xAB#8, 0x11#8] ++ f1 ++ [0x22#8, 0xAB#8] ∧
    withinCap zeroKeyConfig ([0x00#8, 0xAB#8, 0x11#8] ++ f1 ++ [0x22#8, 0xAB#8]).length = true ∧
    State.reset.acc = [] := by
  refine ⟨by decide, by decide +kernel, noMarker_garbage, ?_, by decide, by decide, rfl, rfl⟩
  intro k
  rcases k with _ | _ | k <;> simp

theorem witness_DeliveredMessagesArePrefixOfSent :
    zeroKeyConfig.maxPayload ≤ 65530 ∧
    (∀ m ∈ [(0x1234#16, [0x55#8]), (0x0001#16, [0xDE#8, 0xAD#8])],
      m.2.length ≤ zeroKeyConfig.maxPayload) ∧
    (∀ i ∈ [Instr.accPush (f1 ++ f2.take 5), .dec, .dec], isPushOrDec i = true) ∧
    pushedBytes [Instr.accPush (f1 ++ f2.take 5), .dec, .dec] <+:
      ([(0x1234#16, [0x55#8]), (0x0001#16, [0xDE#8, 0xAD#8])].map
        fun m => packetOf zeroKeyConfig m.1 m.2).flatten ∧
    withinCap zeroKeyConfig (pushedBytes [Instr.accPush (f1 ++ f2.take 5), .dec, .dec]).length = true ∧
    State.reset.acc = [] := by decide +kernel

/-- The first and the last bit of the region, and the last bit of the trailer. -/
theorem witness_SingleBitFlipIsDetected : candidateKeyConfig.maxPayload ≤ 65530 ∧
    serialize zeroKeyConfig 0x1234#16 [0x55#8] = ⟨.ok, some (.packet f1)⟩ ∧
    (withAcc (flipBit f1 4 0)).acc = flipBit f1 4 0 ∧ 4 < f1.length - 2 ∧ 11 < f1.length - 2 ∧
    f1.length - 2 ≤ 13 ∧ 13 < f1.length ∧ (7 : Nat) < 8 ∧ zeroKeyConfig.crcCheck = true ∧
    ({ zeroKeyConfig with crcCheck := false } : Config).crcCheck = false ∧
    serialize { zeroKeyConfig with crcCheck := false } 0x1234#16 [0x55#8] = ⟨.ok, some (.packet f1)⟩ := by
  decide +kernel

/-- V50's accumulator, full, its marker waiting for 263 bytes. -/
def fullAcc : Bytes := [0xAB#8, 0xCD#8, 0xFF#8, 0x00#8, 1#8, 2#8, 3#8, 4#8, 5#8, 6#8, 7#8, 8#8, 9#8,
  10#8, 11#8, 12#8]

theorem witness_FullAccumulatorStandstill : cap16.accCap = some 16 ∧ (withAcc fullAcc).acc.length = 16 ∧
    PartialFrameIn (withAcc fullAcc).acc ∧
    (∀ i ∈ [Instr.accPush [0#8], .dec, .accPush []], isPushOrDec i = true) :=
  ⟨rfl, rfl, ⟨[], fullAcc.drop 2, rfl, noMarker_nil,
    .inr ⟨0xFF#8, 0x00#8, fullAcc.drop 4, rfl, by decide⟩⟩, by decide⟩

/-- An operation that changes each element. -/
theorem witness_OnlyNamedOperationsWriteEachElement :
    (perform hardware (.crcUpd 0x01#8) State.reset).crc ≠ State.reset.crc ∧
    (perform hardware (.xorByte 0x01#8) State.reset).kidx ≠ State.reset.kidx ∧
    (perform hardware .accClr (withAcc f1)).acc ≠ (withAcc f1).acc := by
  refine ⟨by decide +kernel, by decide, by decide⟩

theorem witness_FailingOperationEffect :
    (perform zeroKeyConfig .dec (withAcc [0x00#8, 0xAB#8])).returned =
      [((withAcc [0x00#8, 0xAB#8]).presenter, ⟨.noMessage, none⟩)] ∧
    (perform zeroKeyConfig .dec (withAcc [0x00#8, 0xAB#8])).acc ≠ (withAcc [0x00#8, 0xAB#8]).acc := by
  decide +kernel

theorem witness_UnitsDoNotInterfere : unitOf .crcRd ≠ unitOf .dec ∧ unitOf .xorClr ≠ unitOf .crcClr := by
  decide

theorem witness_FramerIgnoresStandaloneRegisters :
    unitOf .dec = .uFrm ∧ exec .dec State.reset =
      .next { State.reset with returned := [(.host 0, ⟨.noMessage, none⟩)] } := ⟨rfl, rfl⟩

theorem witness_CapacityInvariant : AccWithinCap hardware State.reset ∧
    step (State.reset.withFetchWord 16 0x3000) =
      .next { State.reset with returned := [(.host 0, ⟨.ok, none⟩)] } := by
  refine ⟨?_, rfl⟩
  simp only [AccWithinCap, Memory.wf, withinCap, State.reset]
  split <;> simp

theorem witness_AccumulatorIsSuffixOfAppended :
    (withAcc [0x00#8, 0xAB#8]).acc <:+ ([0x11#8, 0x00#8, 0xAB#8] : Bytes) ∧
    step ((withAcc [0x00#8, 0xAB#8]).withFetchWord 16 0x3300) =
      .next { withAcc [0xAB#8] with returned := [(.host 0, ⟨.noMessage, none⟩)] } :=
  ⟨by decide, rfl⟩

/-- One Message delivered and the next being received. -/
def midStream : State :=
  { withAcc (f2.take 5) with
    returned := [(.host 0, ⟨.ok, some (.message (sentMessage 0x1234#16 [0x55#8]))⟩)] }

/-- The first clause: the rest of the second packet is pushed. -/
theorem witness_StreamInvariant_operation :
    zeroKeyConfig.maxPayload ≤ 65530 ∧
    (∀ m ∈ [(0x1234#16, [0x55#8]), (0x0001#16, [0xDE#8, 0xAD#8])],
      m.2.length ≤ zeroKeyConfig.maxPayload) ∧
    Instr.accPush (f2.drop 5) ≠ .accClr ∧
    StreamInv zeroKeyConfig [(0x1234#16, [0x55#8]), (0x0001#16, [0xDE#8, 0xAD#8])] midStream
      (pushedBytes [.accPush (f2.drop 5)] ++ []) :=
  ⟨by decide, by decide, by decide, by decide +kernel,
    [(0x1234#16, [0x55#8])], [(0x0001#16, [0xDE#8, 0xAD#8])], by decide, by decide +kernel,
    by decide +kernel⟩

/-- The second clause: one Message delivered, none of the next buffered, a `DEC` presented. -/
theorem witness_StreamInvariant_step :
    (∀ m ∈ [(0x1234#16, [0x55#8]), (0x0001#16, [0xDE#8, 0xAD#8])], m.2.length ≤ 65530) ∧
    (∀ e ∈ ({ midStream with acc := [] }.withFetchWord 16 0x3300).presented, keepsStream e = true) ∧
    StreamInv hardware [(0x1234#16, [0x55#8]), (0x0001#16, [0xDE#8, 0xAD#8])]
      ({ midStream with acc := [] }.withFetchWord 16 0x3300)
      (pendingBytes ({ midStream with acc := [] }.withFetchWord 16 0x3300).presented) ∧
    ∃ t, step ({ midStream with acc := [] }.withFetchWord 16 0x3300) = .next t := by
  refine ⟨by decide, by decide, ⟨?_, [(0x1234#16, [0x55#8])], [(0x0001#16, [0xDE#8, 0xAD#8])], by decide,
    by decide +kernel, ?_⟩, _, rfl⟩
  · have h : ({ midStream with acc := [] }.withFetchWord 16 0x3300).acc.length +
        (pendingBytes ({ midStream with acc := [] }.withFetchWord 16 0x3300).presented).length = 0 := rfl
    rw [h, withinCap]
    split <;> simp
  · exact List.nil_prefix

end Sys2Proof.Tests
end

section
/-! PROOFS. What the block takes up next, an equation per kind of presented event (R27, R190, R69, R72). -/

namespace Sys2Proof.Machine

theorem fetch_of_nil {s : State} (h : s.presented = []) : fetch s = .idle := by
  simp [fetch, h]

theorem fetch_of_reset {s : State} {rest : List Event} (h : s.presented = .reset :: rest) :
    fetch s = .reset { s with presented := rest } := by
  simp [fetch, h]

theorem fetch_of_instr {s : State} {a : Agent} {c : Command} {rest : List Event} {i : Instr}
    (h : s.presented = .operation a c :: rest) (hd : decode c = .instr i) :
    fetch s = .run i (s.taking a rest) := by
  simp [fetch, h, hd]

theorem fetch_of_illegalOp {s : State} {a : Agent} {c : Command} {rest : List Event}
    (h : s.presented = .operation a c :: rest) (hd : decode c = .illegalOp) :
    fetch s = .illegal (s.taking a rest) := by
  simp [fetch, h, hd]

end Sys2Proof.Machine
end

section
/-! PROOFS. The accumulator as a suffix of what was appended (R24). -/

namespace Sys2Proof.Safety

open Sys2Proof.Machine

/-- R24 for one operation, under every configuration: only `ACC.CLR`, `ACC.PUSH` and `DEC` write the
accumulator, and `DEC` drops bytes from its front alone. -/
theorem perform_acc_suffix_appendedAfter (cfg : Config) (i : Instr) {s : State} {W : Bytes}
    (hW : s.acc <:+ W) : (perform cfg i s).acc <:+ appendedAfter cfg i s W := by
  rw [perform_acc]
  cases i with
  | accClr => exact List.nil_suffix
  | accPush chunk =>
    simp only [appendedAfter]
    split
    · exact List.suffix_append_self_iff.mpr hW
    · exact hW
  | dec => exact (parse_suffix cfg s.acc).trans hW
  | _ => exact hW

/-- Settles O59: of the four things a step can do, reset empties both sides, an operation keeps the
suffix, and the other two leave the accumulator and `W` as they are. -/
theorem accumulatorIsSuffixOfAppended : Obligations.AccumulatorIsSuffixOfAppended := by
  intro s t W hW hstep
  unfold appendedAfterStep
  obtain ⟨hp, rfl⟩ | ⟨rest, hp, rfl⟩ | ⟨a, c, rest, i, hp, hd, rfl⟩ | ⟨a, c, rest, hp, hd, rfl⟩ :=
    step_cases hstep
  · rw [fetch_of_nil hp]; exact hW
  · rw [fetch_of_reset hp]; exact List.nil_suffix
  · rw [fetch_of_instr hp hd]; exact perform_acc_suffix_appendedAfter hardware i hW
  · rw [fetch_of_illegalOp hp hd]; exact hW

end Sys2Proof.Safety
end

section
/-! PROOFS. Consecutive pushes and the one push of all their bytes (R136, R47, R76). -/

namespace Sys2Proof.Machine

/-- R136, where the chunk fits. -/
theorem perform_accPush_acc_of_fits {cfg : Config} {chunk : Bytes} {s : State}
    (h : withinCap cfg (s.acc.length + chunk.length) = true) :
    (perform cfg (.accPush chunk) s).acc = s.acc ++ chunk := by
  simp [perform_acc, h]

/-- R136, R47: the capacity test passes before every piece, since what is appended up to there is no
longer than the whole. -/
theorem performAll_accPush_acc {cfg : Config} (pieces : List Bytes) {s : State}
    (h : withinCap cfg (s.acc.length + pieces.flatten.length) = true) :
    (performAll cfg (pieces.map .accPush) s).acc = s.acc ++ pieces.flatten := by
  induction pieces generalizing s with
  | nil => simp [performAll]
  | cons p ps ih =>
    rw [List.flatten_cons, List.length_append, ← Nat.add_assoc] at h
    have hp : (perform cfg (.accPush p) s).acc = s.acc ++ p :=
      perform_accPush_acc_of_fits (withinCap_mono cfg (Nat.le_add_right _ _) h)
    have hps : withinCap cfg ((perform cfg (.accPush p) s).acc.length + ps.flatten.length)
        = true := by
      rwa [hp, List.length_append]
    rw [List.map_cons, performAll, ih hps, hp, List.flatten_cons, List.append_assoc]

end Sys2Proof.Machine

namespace Sys2Proof.Safety

open Sys2Proof.Machine

/-- R76: as many pieces as there are bytes are enough. -/
theorem pushedBytes_pushPieces {n : Nat} {b : Bytes} (h : b.length ≤ n) :
    pushedBytes (pushPieces n b) = b := by
  induction n, b using pushPieces.induct with
  | case1 b => exact (List.length_eq_zero_iff.mp (Nat.le_zero.mp h)).symm
  | case2 n => rfl
  | case3 n x b ih =>
    have hrest : ((x :: b).drop 65535).length ≤ n := by
      rw [List.length_drop]
      omega
    rw [pushPieces, pushedBytes, ih hrest, List.take_append_drop]

/-- R71: every piece is short enough for `clen : u16`. -/
theorem wf_of_mem_pushPieces {n : Nat} {b : Bytes} {i : Instr} (h : i ∈ pushPieces n b) :
    i.wf = true := by
  induction n, b using pushPieces.induct with
  | case1 b => cases h
  | case2 n => cases h
  | case3 n x b ih =>
    obtain rfl | hrest := List.mem_cons.mp h
    · exact decide_eq_true (Nat.lt_succ_of_le (List.length_take_le 65535 (x :: b)))
    · exact ih hrest

/-- Settles O34: both ways of pushing append the whole sequence, and a long push is cut into
well-formed pieces of exactly its bytes. -/
theorem chunkBoundariesCarryNoMeaning : Obligations.ChunkBoundariesCarryNoMeaning := by
  refine ⟨fun cfg pieces s h => ?_, fun b =>
    ⟨pushedBytes_pushPieces (Nat.le_refl b.length), fun i => wf_of_mem_pushPieces⟩⟩
  rw [performAll_accPush_acc pieces h, perform_accPush_acc_of_fits h]

end Sys2Proof.Safety
end

section
/-! PROOFS. The CRC step as a linear map that loses nothing, and its table form (R90, R91, R96). -/

namespace Sys2Proof.Machine

/-! One shift step. -/

theorem crcShift_of_bit15_false {c : U16} (h : c.getLsbD 15 = false) : crcShift c = c <<< 1 :=
  if_neg (h ▸ Bool.false_ne_true)

theorem crcShift_of_bit15_true {c : U16} (h : c.getLsbD 15 = true) :
    crcShift c = c <<< 1 ^^^ crcPoly :=
  if_pos h

/-- Where bit 15 is set in both, the polynomial is added twice and cancels. -/
theorem crcShift_xor (c d : U16) : crcShift (c ^^^ d) = crcShift c ^^^ crcShift d := by
  have hxor : (c ^^^ d).getLsbD 15 = (c.getLsbD 15 ^^ d.getLsbD 15) := BitVec.getLsbD_xor
  cases hc : c.getLsbD 15 <;> cases hd : d.getLsbD 15 <;> rw [hc, hd] at hxor
  case false.false =>
    rw [crcShift_of_bit15_false hxor, crcShift_of_bit15_false hc, crcShift_of_bit15_false hd,
      BitVec.shiftLeft_xor_distrib]
  case false.true =>
    rw [crcShift_of_bit15_true hxor, crcShift_of_bit15_false hc, crcShift_of_bit15_true hd,
      BitVec.shiftLeft_xor_distrib, BitVec.xor_assoc]
  case true.false =>
    rw [crcShift_of_bit15_true hxor, crcShift_of_bit15_true hc, crcShift_of_bit15_false hd,
      BitVec.shiftLeft_xor_distrib]
    ac_rfl
  case true.true =>
    have hcancel (x y p : U16) : x ^^^ p ^^^ (y ^^^ p) = x ^^^ y := by
      rw [BitVec.xor_comm y p, BitVec.xor_assoc, ← BitVec.xor_assoc p, BitVec.xor_self,
        BitVec.zero_xor]
    rw [crcShift_of_bit15_false hxor, crcShift_of_bit15_true hc, crcShift_of_bit15_true hd,
      BitVec.shiftLeft_xor_distrib, hcancel]

/-- R90: the left shift clears bit 0 and the polynomial's bit 0 is set, so the bit shifted out comes
back as bit 0. -/
theorem getLsbD_crcShift_zero (c : U16) : (crcShift c).getLsbD 0 = c.getLsbD 15 := by
  cases h : c.getLsbD 15 with
  | false => simp [crcShift_of_bit15_false h]
  | true => simp [crcShift_of_bit15_true h, crcPoly]

theorem eq_zero_of_crcShift_eq_zero {c : U16} (h : crcShift c = 0x0000#16) : c = 0x0000#16 := by
  have h15 : c.getLsbD 15 = false := by rw [← getLsbD_crcShift_zero, h, BitVec.getLsbD_zero]
  rw [crcShift_of_bit15_false h15] at h
  apply BitVec.eq_of_getLsbD_eq
  intro i hi
  obtain rfl | hlt : i = 15 ∨ i + 1 < 16 := by omega
  · rw [h15, BitVec.getLsbD_zero]
  · have hbit : (c <<< 1).getLsbD (i + 1) = c.getLsbD i := by
      simp [hlt, BitVec.getLsbD_eq_getElem hi]
    rw [← hbit, h, BitVec.getLsbD_zero, BitVec.getLsbD_zero]

theorem crcShift_injective : Function.Injective crcShift := by
  intro c d h
  rw [← BitVec.xor_eq_zero_iff] at h ⊢
  exact eq_zero_of_crcShift_eq_zero (crcShift_xor c d ▸ h)

/-! Several shift steps. -/

theorem crcShifts_xor (n : Nat) (c d : U16) :
    crcShifts n (c ^^^ d) = crcShifts n c ^^^ crcShifts n d := by
  induction n generalizing c d with
  | zero => rfl
  | succ n ih => simp only [crcShifts, crcShift_xor, ih]

theorem crcShifts_injective (n : Nat) : Function.Injective (crcShifts n) := by
  induction n with
  | zero => exact Function.injective_id
  | succ n ih => exact ih.comp crcShift_injective

/-- R90: as long as only zero bits are shifted out, the polynomial is never added. -/
theorem crcShifts_eq_shiftLeft {n : Nat} {c : U16}
    (h : ∀ i, 16 ≤ i + n → c.getLsbD i = false) : crcShifts n c = c <<< n := by
  induction n generalizing c with
  | zero => simp [crcShifts]
  | succ n ih =>
    have hrest : ∀ i, 16 ≤ i + n → (c <<< 1).getLsbD i = false := by
      intro i hi
      cases i with
      | zero => simp
      | succ i => simp [h i (by omega)]
    rw [crcShifts, crcShift_of_bit15_false (h 15 (by omega)), ih hrest, Nat.add_comm n 1,
      BitVec.shiftLeft_add]

/-! One byte. -/

/-- R13: the two bytes of a u16 do not overlap. -/
theorem le16_eq_xor (b0 b1 : Byte) : le16 b0 b1 = b0.setWidth 16 ^^^ b1.setWidth 16 <<< 8 := by
  apply BitVec.eq_of_getLsbD_eq
  intro i h
  rw [le16, BitVec.getLsbD_or, BitVec.getLsbD_xor]
  by_cases h8 : i < 8
  · simp [h8]
  · simp [BitVec.getLsbD_of_ge b0 i (Nat.le_of_not_lt h8)]

theorem setWidth_lo_shiftLeft (c : U16) : (lo c).setWidth 16 <<< 8 = c <<< 8 := by
  apply BitVec.eq_of_getLsbD_eq
  intro i h
  have h8 : i - 8 < 8 := by omega
  simp [lo, h, h8, BitVec.getLsbD_eq_getElem (show i - 8 < 16 by omega)]

@[simp] theorem crc16Step_zero_zero : crc16Step 0x0000#16 0x00#8 = 0x0000#16 := by decide

theorem crc16Step_xor (c d : U16) (a b : Byte) :
    crc16Step (c ^^^ d) (a ^^^ b) = crc16Step c a ^^^ crc16Step d b := by
  unfold crc16Step
  rw [← crcShifts_xor, BitVec.setWidth_xor, BitVec.shiftLeft_xor_distrib]
  ac_rfl

/-- R96 (a): the byte meets the high byte of the running value before any shift; the low byte is
moved up whole, since eight shifts push only zero bits out above it. -/
theorem crc16Step_eq_shiftLeft_xor (c : U16) (b : Byte) :
    crc16Step c b = (c <<< 8) ^^^ crc16Step 0x0000#16 (hi c ^^^ b) := by
  have hsplit : c ^^^ b.setWidth 16 <<< 8 =
      (lo c).setWidth 16 ^^^ (hi c ^^^ b).setWidth 16 <<< 8 := by
    rw [BitVec.setWidth_xor, BitVec.shiftLeft_xor_distrib, ← BitVec.xor_assoc, ← le16_eq_xor,
      le16_lo_hi]
  have hlow : crcShifts 8 ((lo c).setWidth 16) = c <<< 8 := by
    rw [crcShifts_eq_shiftLeft, setWidth_lo_shiftLeft]
    intro i hi
    rw [BitVec.getLsbD_setWidth, BitVec.getLsbD_of_ge _ i (by omega), Bool.and_false]
  rw [crc16Step, hsplit, crcShifts_xor, hlow, crc16Step, BitVec.zero_xor]

/-- R96 (a): the byte that equals the high byte of the running value only moves the low byte up. -/
theorem crc16Step_hi (c : U16) : crc16Step c (hi c) = c <<< 8 := by
  rw [crc16Step_eq_shiftLeft_xor, BitVec.xor_self, crc16Step_zero_zero, BitVec.xor_zero]

theorem hi_shiftLeft_eight (c : U16) : hi (c <<< 8) = lo c := by
  apply BitVec.eq_of_getLsbD_eq
  intro i h
  have h16 : 8 + i < 16 := by omega
  simp [hi, lo, h, h16, BitVec.getLsbD_eq_getElem (show i < 16 by omega)]

theorem crc16Step_injective_left (b : Byte) : Function.Injective (crc16Step · b) := by
  intro c d h
  exact (BitVec.xor_left_inj _).mp (crcShifts_injective 8 h)

theorem crc16Step_injective_right (c : U16) : Function.Injective (crc16Step c) := by
  intro a b h
  have hword : a.setWidth 16 <<< 8 = b.setWidth 16 <<< 8 :=
    (BitVec.xor_right_inj c).mp (crcShifts_injective 8 h)
  have hle : le16 0x00#8 a = le16 0x00#8 b := by rw [le16_eq_xor, le16_eq_xor, hword]
  rw [← hi_le16 0x00#8 a, hle, hi_le16]

/-! A sequence. -/

theorem foldl_crc16Step_injective (t : Bytes) :
    Function.Injective (fun c => t.foldl crc16Step c) := by
  induction t with
  | nil => exact Function.injective_id
  | cons b t ih => exact ih.comp (crc16Step_injective_left b)

/-- R96 (b) from any two initial values. -/
theorem foldl_crc16Step_xor {s t : Bytes} (h : s.length = t.length) (c d : U16) :
    (List.zipWith (· ^^^ ·) s t).foldl crc16Step (c ^^^ d) =
      s.foldl crc16Step c ^^^ t.foldl crc16Step d := by
  induction s generalizing t c d with
  | nil => rw [List.eq_nil_of_length_eq_zero h.symm]; rfl
  | cons a s ih =>
    cases t with
    | nil => cases h
    | cons b t =>
      rw [List.zipWith_cons_cons, List.foldl_cons, crc16Step_xor, ih (Nat.succ.inj h),
        List.foldl_cons, List.foldl_cons]

theorem foldl_crc16Step_replicate_zero (n : Nat) :
    (List.replicate n 0x00#8).foldl crc16Step 0x0000#16 = 0x0000#16 := by
  induction n with
  | zero => rfl
  | succ n ih => rw [List.replicate_succ, List.foldl_cons, crc16Step_zero_zero, ih]

/-- The running value up to a byte, the byte's step, and the steps after it each keep a difference. -/
theorem crc16_set_injective {s : Bytes} {i : Nat} (h : i < s.length) :
    Function.Injective (fun b => crc16 (s.set i b)) := by
  have hcut (b : Byte) : crc16 (s.set i b) =
      (s.drop (i + 1)).foldl crc16Step (crc16Step (crc16 (s.take i)) b) := by
    rw [List.set_eq_take_append_cons_drop, if_pos h, crc16_append, List.foldl_cons]
  intro a b hab
  simp only [hcut] at hab
  exact crc16Step_injective_right _ (foldl_crc16Step_injective _ hab)

end Sys2Proof.Machine

namespace Sys2Proof.Safety

open Sys2Proof.Machine

/-- Settles O18: the table form and linearity of one step, carried over a sequence. -/
theorem crcTableFormLinearityAndZeros : Obligations.CrcTableFormLinearityAndZeros := by
  refine ⟨crc16Step_eq_shiftLeft_xor, fun s t h => ?_, fun n s => ?_, by decide⟩
  · exact foldl_crc16Step_xor h 0x0000#16 0x0000#16
  · rw [crc16_append, crc16, foldl_crc16Step_replicate_zero, crc16]

/-- Settles O19: a flipped bit makes a different byte, and the CRC tells sequences that differ in one
byte apart. -/
theorem crcDetectsSingleBitFlip : Obligations.CrcDetectsSingleBitFlip := by
  intro s i k hi hk heq
  have hself : s.set i (byteAt s i) = s := by
    rw [byteAt_eq_getElem s i hi, List.set_getElem_self]
  have hbyte : byteAt s i ^^^ 1#8 <<< k = byteAt s i :=
    crc16_set_injective hi (heq.trans (congrArg crc16 hself.symm))
  have hmask : ∀ k < 8, 1#8 <<< k ≠ 0#8 := by decide
  exact hmask k hk ((BitVec.xor_right_inj _).mp (hbyte.trans BitVec.xor_zero.symm))

/-- Settles O20: the high byte leaves the low byte as the new high byte, which the low byte then
cancels in the same way. -/
theorem crcResidueHighByteFirst : Obligations.CrcResidueHighByteFirst := by
  refine ⟨fun s => ?_, by decide +kernel⟩
  have hlow : crc16Step (crc16 s <<< 8) (lo (crc16 s)) = crc16 s <<< 8 <<< 8 := by
    rw [← hi_shiftLeft_eight, crc16Step_hi]
  rw [crc16_append, List.foldl_cons, crc16Step_hi, List.foldl_cons, hlow, List.foldl_nil,
    ← BitVec.shiftLeft_add, BitVec.shiftLeft_eq_zero (by decide)]

/-- Settles O16: `crc16` goes over the bytes in order, and the region is built with the body's CRC. -/
theorem crcOfSequence : Obligations.CrcOfSequence := by
  refine ⟨crc16_nil, fun s b => ?_, fun cfg type payload => rfl⟩
  rw [crc16_append, List.foldl_cons, List.foldl_nil]

end Sys2Proof.Safety
end

section
/-! PROOFS. `obf` byte by byte, and the `XOR.BYTE`s that compute it (R105, R107, R110). -/

namespace Sys2Proof.Machine

/-! The function. -/

/-- R105 from any key index: each byte meets the key byte at its own distance from that index. -/
theorem getElem?_obfFrom (cfg : Config) (i : Nat) (s : Bytes) (k : Nat) :
    (obfFrom cfg i s)[k]? = s[k]?.map (· ^^^ keyByte cfg (i + k)) := by
  induction s generalizing i k with
  | nil => rfl
  | cons b s ih =>
    cases k with
    | zero => rfl
    | succ k =>
      rw [obfFrom, List.getElem?_cons_succ, List.getElem?_cons_succ, ih, Nat.add_assoc,
        Nat.add_comm 1 k]

/-- R107 from any key index: the same key byte is added twice and cancels. -/
theorem obfFrom_obfFrom (cfg : Config) (i : Nat) (s : Bytes) :
    obfFrom cfg i (obfFrom cfg i s) = s := by
  induction s generalizing i with
  | nil => rfl
  | cons b s ih =>
    rw [obfFrom, obfFrom, ih, BitVec.xor_assoc, BitVec.xor_self, BitVec.xor_zero]

/-- The key repeats every 16 bytes, so only the start index modulo 16 matters. -/
theorem obfFrom_mod (cfg : Config) (i : Nat) (s : Bytes) :
    obfFrom cfg (i % 16) s = obfFrom cfg i s := by
  apply List.ext_getElem?
  intro k
  rw [getElem?_obfFrom, getElem?_obfFrom, ← keyByte_mod cfg (i % 16 + k), Nat.mod_add_mod,
    keyByte_mod]

theorem keyByte_of_zero_key {cfg : Config} (h : cfg.key = Vector.replicate 16 0x00#8) (i : Nat) :
    keyByte cfg i = 0x00#8 := by
  simp [keyByte, h]

theorem obf_of_zero_key {cfg : Config} (h : cfg.key = Vector.replicate 16 0x00#8) (s : Bytes) :
    obf cfg s = s := by
  apply List.ext_getElem?
  intro k
  simp [obf, getElem?_obfFrom, keyByte_of_zero_key h]

/-! The operations. -/

/-- What each operation of a list leaves as it is, the whole list leaves as it is. -/
theorem performAll_keeps {α : Type} (f : State → α) {cfg : Config} {is : List Instr}
    (h : ∀ i ∈ is, ∀ s, f (perform cfg i s) = f s) (s : State) :
    f (performAll cfg is s) = f s := by
  induction is generalizing s with
  | nil => rfl
  | cons i is ih =>
    rw [performAll, ih fun j hj => h j (List.mem_cons_of_mem i hj), h i List.mem_cons_self]

/-- R76: the operations `XOR.BUF` is made of. -/
theorem mem_xorBuf {b : Bytes} {i : Instr} (h : i ∈ xorBuf b) :
    i = .xorClr ∨ ∃ v, i = .xorByte v := by
  obtain rfl | hi := List.mem_cons.mp h
  · exact .inl rfl
  · obtain ⟨v, -, rfl⟩ := List.mem_map.mp hi
    exact .inr ⟨v, rfl⟩

theorem performAll_xorBuf_crc (cfg : Config) (b : Bytes) (s : State) :
    (performAll cfg (xorBuf b) s).crc = s.crc := by
  refine performAll_keeps State.crc (fun i hi t => ?_) s
  obtain rfl | ⟨v, rfl⟩ := mem_xorBuf hi <;> exact perform_crc cfg _ t

theorem performAll_xorBuf_acc (cfg : Config) (b : Bytes) (s : State) :
    (performAll cfg (xorBuf b) s).acc = s.acc := by
  refine performAll_keeps State.acc (fun i hi t => ?_) s
  obtain rfl | ⟨v, rfl⟩ := mem_xorBuf hi <;> exact perform_acc cfg _ t

/-- R110: each `XOR.BYTE` moves the key index on by one. -/
theorem performAll_xorByte_kidx (cfg : Config) (b : Bytes) (s : State) :
    (performAll cfg (b.map .xorByte) s).kidx = s.kidx + BitVec.ofNat 4 b.length := by
  induction b generalizing s with
  | nil => exact (BitVec.add_zero s.kidx).symm
  | cons v b ih =>
    rw [List.map_cons, performAll, ih, perform_kidx, List.length_cons, Nat.add_comm b.length 1,
      BitVec.ofNat_add, BitVec.add_assoc]

/-- R110: the records returned are the bytes of `obf` from the key index on, to the one agent that
presents them. -/
theorem performAll_xorByte_returned (cfg : Config) (b : Bytes) (s : State) :
    (performAll cfg (b.map .xorByte) s).returned =
      s.returned ++
        (obfFrom cfg s.kidx.toNat b).map (fun v => (s.presenter, Result.okValue (.byte v))) := by
  induction b generalizing s with
  | nil => exact (List.append_nil s.returned).symm
  | cons v b ih =>
    have hkidx : (perform cfg (.xorByte v) s).kidx.toNat = (s.kidx.toNat + 1) % 16 := by
      rw [perform_kidx, BitVec.toNat_add]
      rfl
    rw [List.map_cons, performAll, ih, hkidx, obfFrom_mod, perform_presenter, perform_returned,
      List.append_assoc]
    rfl

/-- Where every record is an `XOR.BYTE`'s, `bytesOf` leaves out none. -/
theorem bytesOf_map_okValue_byte (b : Bytes) :
    bytesOf (b.map fun v => Result.okValue (.byte v)) = b := by
  induction b with
  | nil => rfl
  | cons v b ih => exact congrArg (v :: ·) ih

/-- R76, R109, R110: one record of `XOR.CLR`, then `obf` of the sequence. -/
theorem resultsOf_xorBuf (cfg : Config) (b : Bytes) (s : State) :
    resultsOf ((performAll cfg (xorBuf b) s).returned.drop s.returned.length) =
      Result.done :: (obf cfg b).map (fun v => Result.okValue (.byte v)) := by
  rw [xorBuf, performAll, performAll_xorByte_returned, perform_returned, perform_kidx,
    List.append_assoc, List.drop_left, resultsOf, List.map_append, List.map_map]
  rfl

end Sys2Proof.Machine

namespace Sys2Proof.Safety

open Sys2Proof.Machine

/-- Settles O25: `obf` is `obfFrom` at key index 0, whose bytes are known one by one. -/
theorem obfuscationBytewise : Obligations.ObfuscationBytewise := by
  intro cfg
  refine ⟨fun s => ⟨length_obfFrom cfg 0 s, fun i h => ?_⟩, rfl, obf_of_zero_key⟩
  rw [obf, getElem?_obfFrom, List.getElem?_eq_getElem h, Nat.zero_add]
  rfl

/-- Settles O26: both applications start at key index 0, so each byte meets the same key byte twice. -/
theorem obfuscationSelfInverse : Obligations.ObfuscationSelfInverse :=
  fun cfg s => obfFrom_obfFrom cfg 0 s

/-- Settles O27: `XOR.CLR` puts the key index where `obf` starts, and the `XOR.BYTE`s go on from
there; neither operation writes `CRC` or `ACC`. -/
theorem xorBufComputesObfuscation : Obligations.XorBufComputesObfuscation := by
  intro cfg b s
  refine ⟨?_, ?_, performAll_xorBuf_crc cfg b s, performAll_xorBuf_acc cfg b s⟩
  · rw [resultsOf_xorBuf]
    exact bytesOf_map_okValue_byte (obf cfg b)
  · rw [xorBuf, performAll, performAll_xorByte_kidx, perform_kidx]
    exact BitVec.zero_add _

end Sys2Proof.Safety
end

section
/-! PROOFS. Reading a frame at its place in a sequence: the first marker, the length field, the
region, the trailer and what follows (R60, R139 to R149). -/

namespace Sys2Proof.Machine

/-- R12: the middle one of three parts, by the indices at which it begins and ends. -/
theorem slice_of_eq_append {s u v w : Bytes} {i j : Nat} (h : s = u ++ v ++ w)
    (hi : i = u.length) (hj : j = (u ++ v).length) : slice s i j = v := by
  rw [h, hi, hj, List.length_append, slice_append]

theorem le16At_append_right (s t : Bytes) (i : Nat) : le16At (s ++ t) (s.length + i) = le16At t i := by
  simp only [le16At, Nat.add_assoc, byteAt_append_right]

end Sys2Proof.Machine

namespace Sys2Proof.Safety

open Sys2Proof.Machine

/-! The first marker. -/

theorem NoMarker.tail {b : Byte} {g : Bytes} (h : NoMarker (b :: g)) : NoMarker g :=
  fun k => h (k + 1)

/-- R139: the marker's bytes differ, so the last byte before it cannot begin a marker with its
first. -/
theorem findMarker_append {pre : Bytes} (h : NoMarker pre) (rest : Bytes) :
    findMarker (pre ++ HDR0 :: HDR1 :: rest) = some pre.length := by
  induction pre with
  | nil => rfl
  | cons b pre ih =>
    have hmove : findMarker (b :: (pre ++ HDR0 :: HDR1 :: rest)) =
        (findMarker (pre ++ HDR0 :: HDR1 :: rest)).map (· + 1) := by
      cases pre with
      | nil => exact if_neg fun hm => absurd hm.2 (by decide)
      | cons c pre => exact if_neg fun ⟨hb, hc⟩ => h 0 (by simp [hb, hc, HDR0, HDR1])
    rw [List.cons_append, hmove, ih h.tail, Option.map_some, List.length_cons]

/-! The parts of a frame. -/

section
variable {a pre region post : Bytes} {msgLen : Nat} {t0 t1 : Byte}

theorem FrameIn.findMarker_eq (h : FrameIn a pre msgLen region t0 t1 post) :
    findMarker a = some pre.length := by
  obtain ⟨rfl, hfirst, -, -⟩ := h
  simp only [List.append_assoc]
  exact findMarker_append hfirst _

theorem FrameIn.length_eq (h : FrameIn a pre msgLen region t0 t1 post) :
    a.length = pre.length + 8 + msgLen + post.length := by
  simp only [h.layout, List.length_append, List.length_cons, List.length_nil, length_bytesLe16,
    h.size]
  omega

theorem FrameIn.le16At_eq (h : FrameIn a pre msgLen region t0 t1 post) :
    le16At a (pre.length + 2) = BitVec.ofNat 16 msgLen := by
  rw [h.layout]
  simp only [List.append_assoc, le16At_append_right]
  exact le16_lo_hi _

/-- R142: the length field is read as the number it was written from. -/
theorem FrameIn.msgLenAt_eq (h : FrameIn a pre msgLen region t0 t1 post) :
    msgLenAt a pre.length = msgLen := by
  rw [msgLenAt, h.le16At_eq, BitVec.toNat_ofNat, Nat.mod_eq_of_lt h.width]

theorem FrameIn.length_before_trailer (h : FrameIn a pre msgLen region t0 t1 post) :
    (pre ++ [0xAB#8, 0xCD#8] ++ bytesLe16 (BitVec.ofNat 16 msgLen) ++ region).length =
      pre.length + 6 + msgLen := by
  simp only [List.length_append, List.length_cons, List.length_nil, length_bytesLe16, h.size]
  omega

/-- R145: the bytes that are de-obfuscated. -/
theorem FrameIn.slice_region (h : FrameIn a pre msgLen region t0 t1 post) :
    slice a (pre.length + 4) (pre.length + 6 + msgLen) = region := by
  refine slice_of_eq_append (v := region) (w := [t0, t1] ++ post) ?_ ?_ h.length_before_trailer.symm
  · rw [h.layout, List.append_assoc _ [t0, t1] post]
  · simp

theorem FrameIn.trailerAt_eq (h : FrameIn a pre msgLen region t0 t1 post) :
    trailerAt a (pre.length + 6 + msgLen) = (decide (t0 = TRL0) && decide (t1 = TRL1)) := by
  have hbyte (i : Nat) : byteAt a (pre.length + 6 + msgLen + i) = byteAt ([t0, t1] ++ post) i := by
    rw [← h.length_before_trailer, h.layout, List.append_assoc _ [t0, t1] post, byteAt_append_right]
  exact congrArg₂ (fun b c => decide (b = TRL0) && decide (c = TRL1)) (hbyte 0) (hbyte 1)

theorem FrameIn.consume_eq (h : FrameIn a pre msgLen region t0 t1 post) :
    consume a (pre.length + 8 + msgLen) = post := by
  rw [consume, h.layout]
  exact List.drop_left' (by simp [h.size]; omega)

/-- R141, R143, R144: a whole frame with its trailer is opened. -/
theorem FrameIn.parse_eq_openFrame (h : FrameIn a pre msgLen region TRL0 TRL1 post) (cfg : Config) :
    parse cfg a = openFrame cfg a pre.length := by
  have hlen := h.length_eq
  have h8 : ¬ a.length - pre.length < 8 := by omega
  have hwhole : ¬ a.length < pre.length + 6 + msgLen + 2 := by omega
  simp [parse, h.findMarker_eq, h.msgLenAt_eq, h.trailerAt_eq, h8, hwhole]

end

end Sys2Proof.Safety
end

section
/-! PROOFS. What is in an intact frame comes out of it (R145 to R149). -/

namespace Sys2Proof.Machine

@[simp] theorem length_obf (cfg : Config) (s : Bytes) : (obf cfg s).length = s.length :=
  length_obfFrom cfg 0 s

/-- R148: the two fields of a body and what follows them. -/
theorem messageOf_fields (type declaredLen : U16) (raw : Bytes) :
    messageOf (bytesLe16 type ++ bytesLe16 declaredLen ++ raw) =
      { type, declaredLen, raw, payload := raw.take (min declaredLen.toNat raw.length) } := by
  have htype : le16At (bytesLe16 type ++ bytesLe16 declaredLen ++ raw) 0 = type := le16_lo_hi type
  have hlen : le16At (bytesLe16 type ++ bytesLe16 declaredLen ++ raw) 2 = declaredLen :=
    le16_lo_hi declaredLen
  rw [messageOf, htype, hlen]
  rfl

end Sys2Proof.Machine

namespace Sys2Proof.Safety

open Sys2Proof.Machine

/-- R145 to R149: a frame whose region is an obfuscated body with its CRC, or with any CRC field
where that is not checked, is delivered and consumed with what stands before it. -/
theorem FrameIn.parse_intact {cfg : Config} {a pre region post body : Bytes} {msgLen : Nat} {c : U16}
    (h : FrameIn a pre msgLen region TRL0 TRL1 post) (h4 : 4 ≤ msgLen)
    (hregion : obf cfg region = body ++ bytesLe16 c) (hcrc : cfg.crcCheck = true → crc16 body = c) :
    parse cfg a = (Result.okValue (.message (messageOf body)), post) := by
  have hbody : body.length = msgLen := by
    have hlen := congrArg List.length hregion
    rw [length_obf, h.size, List.length_append, length_bytesLe16] at hlen
    omega
  have hslice : slice (body ++ bytesLe16 c) 0 msgLen = body :=
    slice_of_eq_append (u := []) rfl rfl hbody.symm
  have hfield : le16At (body ++ bytesLe16 c) msgLen = c := by
    rw [← hbody]
    exact (le16At_append_right body (bytesLe16 c) 0).trans (le16_lo_hi c)
  have hpass : ¬ (cfg.crcCheck = true ∧ crc16 body ≠ c) := fun ⟨hcheck, hne⟩ => hne (hcrc hcheck)
  simp only [h.parse_eq_openFrame, openFrame, h.msgLenAt_eq, h.slice_region, hregion, hslice, hfield,
    if_neg (Nat.not_lt.mpr h4), if_neg hpass, h.consume_eq]

end Sys2Proof.Safety
end

section
/-! PROOFS. A packet as a frame: its shape, and that decoding gives back what was encoded (R121 to
R128, R154). -/

namespace Sys2Proof.Machine

theorem serialize_eq_packet_iff {cfg : Config} {type : U16} {payload f : Bytes} :
    serialize cfg type payload = ⟨.ok, some (.packet f)⟩ ↔
      payload.length ≤ cfg.maxPayload ∧ f = packetOf cfg type payload := by
  obtain ⟨hfits, heq⟩ | ⟨hlong, heq⟩ := serialize_cases cfg type payload
  · simp [heq, Result.okValue, hfits, eq_comm]
  · simp [heq, Result.failed, Nat.not_le.mpr hlong]

/-- R121: the two fields are four bytes, so the payload alone decides whether there is a pad. -/
theorem padOf_eq (plen : Nat) : padOf plen = if plen % 2 = 1 then [0x00#8] else [] := by
  have heven : (4 + plen) % 2 = plen % 2 := by omega
  rw [padOf, dataLenOf, heven, PAD]

/-- R107, R124: de-obfuscation gives the body and its CRC back. -/
theorem obf_regionOf (cfg : Config) (type : U16) (payload : Bytes) :
    obf cfg (regionOf cfg type payload) =
      bodyOf type payload ++ bytesLe16 (crc16 (bodyOf type payload)) :=
  obfFrom_obfFrom cfg 0 _

/-! The parts of a packet, under any configuration and for a payload of any length. -/

theorem length_packetOf (cfg : Config) (type : U16) (payload : Bytes) :
    (packetOf cfg type payload).length = 8 + msgLenOf payload.length := by
  simp [packetOf, length_regionOf]
  omega

theorem slice_packetOf_region (cfg : Config) (type : U16) (payload : Bytes) :
    slice (packetOf cfg type payload) 4 (6 + msgLenOf payload.length) =
      regionOf cfg type payload := by
  refine slice_of_eq_append rfl rfl ?_
  simp [length_regionOf]
  omega

theorem slice_packetOf_trailer (cfg : Config) (type : U16) (payload : Bytes) :
    slice (packetOf cfg type payload) (6 + msgLenOf payload.length) (8 + msgLenOf payload.length) =
      [TRL0, TRL1] := by
  refine slice_of_eq_append (List.append_nil _).symm ?_ (length_packetOf cfg type payload).symm
  simp [length_regionOf]
  omega

/-! The two operations of a round trip. -/

/-- R136, where the chunk fits. -/
theorem perform_accPush_of_fits {cfg : Config} {chunk : Bytes} {s : State}
    (h : withinCap cfg (s.acc.length + chunk.length) = true) :
    perform cfg (.accPush chunk) s = (s.append chunk).reply Result.done := if_pos h

theorem perform_dec_of_parse {cfg : Config} {s : State} {r : Result} {a : Bytes}
    (h : parse cfg s.acc = (r, a)) : perform cfg .dec s = (s.setAcc a).reply r := by
  rw [perform, afterDec, h]

end Sys2Proof.Machine

namespace Sys2Proof.Safety

open Sys2Proof.Machine

section
variable {payload : Bytes} (hp : payload.length ≤ 65530)
include hp

/-- R125: a packet is a whole frame, whatever follows it. -/
theorem frameIn_packetOf (cfg : Config) (type : U16) (post : Bytes) :
    FrameIn (packetOf cfg type payload ++ post) [] (msgLenOf payload.length)
      (regionOf cfg type payload) TRL0 TRL1 post where
  layout := rfl
  first := fun k h => by simp at h
  width := by have := msgLenOf_bounds payload.length; omega
  size := length_regionOf cfg type payload

/-- R148, R154: the declared length takes the pad off again. -/
theorem messageOf_bodyOf (type : U16) :
    messageOf (bodyOf type payload) = sentMessage type payload := by
  have hdeclared : (BitVec.ofNat 16 payload.length).toNat = payload.length :=
    Nat.mod_eq_of_lt (by omega)
  rw [bodyOf, List.append_assoc, messageOf_fields, hdeclared, List.length_append,
    Nat.min_eq_left (Nat.le_add_right _ _), List.take_left, padOf_eq, sentMessage]

/-- R154: decoding a packet delivers what was encoded and leaves what follows the packet. -/
theorem parse_packetOf_append (cfg : Config) (type : U16) (post : Bytes) :
    parse cfg (packetOf cfg type payload ++ post) =
      (Result.okValue (.message (sentMessage type payload)), post) := by
  rw [(frameIn_packetOf hp cfg type post).parse_intact
    (by have := msgLenOf_bounds payload.length; omega) (obf_regionOf cfg type payload) fun _ => rfl,
    messageOf_bodyOf hp]

end

/-- Settles O49: the push fits and appends the packet to nothing, and `DEC` takes it off again. -/
theorem encodeThenDecodeRoundTrip : Obligations.EncodeThenDecodeRoundTrip := by
  intro cfg type payload s hmax hfits hacc hroom
  refine ⟨packetOf cfg type payload, serialize_eq_packet_iff.mpr ⟨hfits, rfl⟩, ?_⟩
  have hpush : withinCap cfg (s.acc.length + (packetOf cfg type payload).length) = true := by
    rwa [hacc, length_packetOf, List.length_nil, Nat.zero_add]
  have hparse : parse cfg ((s.append (packetOf cfg type payload)).reply Result.done).acc =
      (Result.okValue (.message (sentMessage type payload)), []) := by
    simpa [hacc] using parse_packetOf_append (hfits.trans hmax) cfg type []
  rw [performAll, perform_accPush_of_fits hpush, performAll, performAll, perform_dec_of_parse hparse]
  simp [State.reply, State.append, State.setAcc, Result.done, Result.okValue, hacc]

/-- Settles O29: the length field is read back as it was written, the region and the trailer stand
where the lengths say, and `obf` gives the region's plain text back. -/
theorem packetShape : Obligations.PacketShape := by
  intro cfg type payload f hmax henc
  obtain ⟨hfits, rfl⟩ := serialize_eq_packet_iff.mp henc
  have hframe := frameIn_packetOf (hfits.trans hmax) cfg type []
  rw [List.append_nil] at hframe
  have hlen := length_packetOf cfg type payload
  have hbounds := msgLenOf_bounds payload.length
  exact ⟨hlen, by omega, by omega, rfl, hframe.msgLenAt_eq, slice_packetOf_trailer cfg type payload,
    (congrArg (obf cfg) (slice_packetOf_region cfg type payload)).trans
      (obf_regionOf cfg type payload)⟩

/-- Settles O30: both pairs are what the one packet decodes to. -/
theorem encIsInjective : Obligations.EncIsInjective := by
  intro cfg type1 type2 payload1 payload2 f hmax henc1 henc2
  obtain ⟨hfits1, rfl⟩ := serialize_eq_packet_iff.mp henc1
  obtain ⟨hfits2, hsame⟩ := serialize_eq_packet_iff.mp henc2
  have hparse1 := parse_packetOf_append (hfits1.trans hmax) cfg type1 []
  have hparse2 := parse_packetOf_append (hfits2.trans hmax) cfg type2 []
  have hsent : sentMessage type1 payload1 = sentMessage type2 payload2 := by
    rw [hsame, hparse2] at hparse1
    simpa [Result.okValue, eq_comm] using hparse1
  exact ⟨congrArg Message.type hsent, congrArg Message.payload hsent⟩

/-- Settles O31: the key touches the region alone, and under the zero key the region is its own plain
text. -/
theorem packetUnderKeyIsMaskedZeroKeyPacket : Obligations.PacketUnderKeyIsMaskedZeroKeyPacket := by
  intro cfg type payload f f0 henc henc0
  obtain ⟨-, rfl⟩ := serialize_eq_packet_iff.mp henc
  obtain ⟨-, rfl⟩ := serialize_eq_packet_iff.mp henc0
  have hplain : regionOf { cfg with key := Vector.replicate 16 0x00#8 } type payload =
      bodyOf type payload ++ bytesLe16 (crc16 (bodyOf type payload)) := obf_of_zero_key rfl _
  have hend : 8 + msgLenOf payload.length - 2 = 6 + msgLenOf payload.length := by omega
  rw [length_packetOf, hend, slice_packetOf_region, slice_packetOf_trailer, hplain]
  rfl

end Sys2Proof.Safety
end

section
/-! PROOFS. The marker search by indices, and on sequences in parts (R139). -/

namespace Sys2Proof.Machine

/-- R139: a header marker stands at index `k`. -/
def MarkerAt (a : Bytes) (k : Nat) : Prop := a[k]? = some HDR0 ∧ a[k + 1]? = some HDR1

theorem MarkerAt.lt_length {a : Bytes} {k : Nat} (h : MarkerAt a k) : k + 1 < a.length :=
  (List.getElem?_eq_some_iff.mp h.2).1

theorem markerAt_append_left {a : Bytes} {k : Nat} (h : k + 1 < a.length) (b : Bytes) :
    MarkerAt (a ++ b) k ↔ MarkerAt a k := by
  rw [MarkerAt, List.getElem?_append_left (by omega), List.getElem?_append_left h, MarkerAt]

theorem markerAt_append_right (a b : Bytes) (k : Nat) :
    MarkerAt (a ++ b) (a.length + k) ↔ MarkerAt b k := by
  rw [MarkerAt, List.getElem?_append_right (by omega), List.getElem?_append_right (by omega),
    Nat.add_assoc, Nat.add_sub_cancel_left, Nat.add_sub_cancel_left, MarkerAt]

theorem markerAt_of_findMarker {a : Bytes} {p : Nat} (h : findMarker a = some p) :
    MarkerAt a p := by
  induction a using findMarker.induct generalizing p with
  | case1 b0 b1 rest hm =>
    rw [findMarker_cons_cons, if_pos hm] at h
    obtain rfl := Option.some.inj h
    exact ⟨congrArg some hm.1, congrArg some hm.2⟩
  | case2 b0 b1 rest hm ih =>
    rw [findMarker_cons_cons, if_neg hm] at h
    obtain ⟨q, hq, rfl⟩ := Option.map_eq_some_iff.mp h
    exact ih hq
  | case3 b => cases h
  | case4 => cases h

/-- R139: no marker stands before the index found. -/
theorem findMarker_le_of_markerAt {a : Bytes} {q : Nat} (h : MarkerAt a q) :
    ∃ p, p ≤ q ∧ findMarker a = some p := by
  induction a using findMarker.induct generalizing q with
  | case1 b0 b1 rest hm => exact ⟨0, Nat.zero_le q, if_pos hm⟩
  | case2 b0 b1 rest hm ih =>
    rw [findMarker_cons_cons, if_neg hm]
    cases q with
    | zero => exact absurd ⟨Option.some.inj h.1, Option.some.inj h.2⟩ hm
    | succ q =>
      obtain ⟨p, hpq, hp⟩ := ih (show MarkerAt (b1 :: rest) q from h)
      exact ⟨p + 1, Nat.succ_le_succ hpq, by rw [hp, Option.map_some]⟩
  | case3 b => exact absurd h.lt_length (by simp)
  | case4 => exact absurd h.lt_length (by simp)

theorem findMarker_eq_some_iff {a : Bytes} {p : Nat} :
    findMarker a = some p ↔ MarkerAt a p ∧ ∀ q, q < p → ¬ MarkerAt a q := by
  constructor
  · refine fun h => ⟨markerAt_of_findMarker h, fun q hq hm => ?_⟩
    obtain ⟨p', hle, hp'⟩ := findMarker_le_of_markerAt hm
    rw [h] at hp'
    have : p = p' := Option.some.inj hp'
    omega
  · rintro ⟨hm, hleast⟩
    obtain ⟨p', hle, hp'⟩ := findMarker_le_of_markerAt hm
    obtain rfl | hlt := Nat.eq_or_lt_of_le hle
    · exact hp'
    · exact absurd (markerAt_of_findMarker hp') (hleast p' hlt)

end Sys2Proof.Machine

namespace Sys2Proof.Safety

open Sys2Proof.Machine

theorem noMarker_iff {a : Bytes} : NoMarker a ↔ ∀ k, ¬ MarkerAt a k := Iff.rfl

theorem findMarker_eq_none_iff {a : Bytes} : findMarker a = none ↔ NoMarker a := by
  rw [noMarker_iff]
  constructor
  · intro h k hm
    obtain ⟨p, -, hp⟩ := findMarker_le_of_markerAt hm
    rw [h] at hp
    cases hp
  · intro h
    cases hp : findMarker a with
    | none => rfl
    | some p => exact absurd (markerAt_of_findMarker hp) (h p)

/-- Settles O37: what the search finds is a marker, and at or before every marker it finds one. -/
theorem markerSearchFindsFirstMatch : Obligations.MarkerSearchFindsFirstMatch :=
  fun _ => ⟨fun _ => findMarker_eq_some_iff.trans and_assoc, findMarker_eq_none_iff, rfl⟩

theorem NoMarker.of_append_left {a b : Bytes} (h : NoMarker (a ++ b)) : NoMarker a :=
  fun k (hm : MarkerAt a k) => h k ((markerAt_append_left hm.lt_length b).mpr hm)

theorem NoMarker.of_append_right {a b : Bytes} (h : NoMarker (a ++ b)) : NoMarker b :=
  fun k (hm : MarkerAt b k) => h (a.length + k) ((markerAt_append_right a b k).mpr hm)

end Sys2Proof.Safety
end

section
/-! PROOFS. What `DEC` does to each form of the accumulator: no marker, a frame still incomplete, a
frame with a wrong trailer (R140, R141, R143, R144). -/

namespace Sys2Proof.Machine

/-- R141, R143: one bound says both, since the length field is not negative. -/
theorem parse_of_length_lt {a : Bytes} {p : Nat} (hp : findMarker a = some p)
    (hshort : a.length < p + 8 + msgLenAt a p) (cfg : Config) :
    parse cfg a = (Result.failed .noMessage, a) := by
  simp only [parse, hp]
  split
  · rfl
  · exact if_pos (by omega)

theorem exec_dec_of_parse {s : State} {r : Result} {a : Bytes}
    (h : parse hardware s.acc = (r, a)) : exec .dec s = .next ((s.setAcc a).reply r) := by
  rw [exec_eq_perform, perform_dec_of_parse h]

end Sys2Proof.Machine

namespace Sys2Proof.Safety

open Sys2Proof.Machine

theorem NoMarker.parse_eq {a : Bytes} (h : NoMarker a) (cfg : Config) :
    parse cfg a = (Result.failed .noMessage, retained a) := by
  rw [parse, findMarker_eq_none_iff.mpr h]

/-- R142: the length field is read where it stands, when it is there. -/
theorem PartialFrameIn.length_lt {a : Bytes} (h : PartialFrameIn a) :
    ∃ p, findMarker a = some p ∧ a.length < p + 8 + msgLenAt a p := by
  obtain ⟨pre, rest, rfl, hfirst, hshort⟩ := h
  rw [List.append_assoc]
  refine ⟨pre.length, findMarker_append hfirst rest, ?_⟩
  obtain hfew | ⟨l0, l1, more, rfl, hmore⟩ := hshort
  · simp only [List.length_append, List.length_cons, List.length_nil]
    omega
  · have hfield : msgLenAt (pre ++ ([0xAB#8, 0xCD#8] ++ l0 :: l1 :: more)) pre.length =
        (le16 l0 l1).toNat := congrArg BitVec.toNat (le16At_append_right pre _ 2)
    simp only [hfield, List.length_append, List.length_cons, List.length_nil]
    omega

theorem PartialFrameIn.parse_eq {a : Bytes} (h : PartialFrameIn a) (cfg : Config) :
    parse cfg a = (Result.failed .noMessage, a) := by
  obtain ⟨p, hp, hshort⟩ := h.length_lt
  exact parse_of_length_lt hp hshort cfg

section
variable {a pre region post : Bytes} {msgLen : Nat} {t0 t1 : Byte}

/-- R144: what stays begins with the length field. -/
theorem FrameIn.resync_eq (h : FrameIn a pre msgLen region t0 t1 post) :
    resync a pre.length =
      bytesLe16 (BitVec.ofNat 16 msgLen) ++ region ++ [t0, t1] ++ post := by
  have hcut : a = (pre ++ [0xAB#8, 0xCD#8]) ++
      (bytesLe16 (BitVec.ofNat 16 msgLen) ++ region ++ [t0, t1] ++ post) := by
    simp only [h.layout, List.append_assoc]
  rw [resync, consume, hcut]
  exact List.drop_left' (by simp)

theorem FrameIn.parse_framingError (h : FrameIn a pre msgLen region t0 t1 post)
    (ht : t0 ≠ TRL0 ∨ t1 ≠ TRL1) (cfg : Config) :
    parse cfg a = (Result.failed .framingError, resync a pre.length) := by
  have hlen := h.length_eq
  have h8 : ¬ a.length - pre.length < 8 := by omega
  have hwhole : ¬ a.length < pre.length + 6 + msgLen + 2 := by omega
  have htrailer : trailerAt a (pre.length + 6 + msgLen) = false := by
    rw [h.trailerAt_eq]
    simpa [imp_iff_not_or] using ht
  simp [parse, h.findMarker_eq, h.msgLenAt_eq, htrailer, h8, hwhole]

end

/-- Settles O38: the search finds nothing, and R140 keeps a last `AB` alone. -/
theorem decWithoutMarkerKeepsTrailingAB : Obligations.DecWithoutMarkerKeepsTrailingAB :=
  fun _ h => exec_dec_of_parse (h.parse_eq hardware)

/-- Settles O39: the accumulator is shorter than the first marker and its length field ask for. -/
theorem decWaitsForWholeFrame : Obligations.DecWaitsForWholeFrame :=
  fun _ h => exec_dec_of_parse (h.parse_eq hardware)

/-- Settles O40: the frame is whole, so its trailer is looked at, and what follows its marker stays. -/
theorem decTrailerMismatchResynchronises : Obligations.DecTrailerMismatchResynchronises := by
  intro s pre region post msgLen t0 t1 h ht
  rw [exec_dec_of_parse (h.parse_framingError ht hardware), h.resync_eq]
  rfl

end Sys2Proof.Safety
end

section
/-! PROOFS. The results of a run, in the order in which they are returned (R49, R74). -/

namespace Sys2Proof.Machine

/-- R49, R74: the results that a list of operations adds, one for each operation. -/
def runResults (cfg : Config) : List Instr → State → List Result
  | [], _ => []
  | i :: is, s => resultOf cfg i s :: runResults cfg is (perform cfg i s)

theorem performAll_returned (cfg : Config) (is : List Instr) (s : State) :
    (performAll cfg is s).returned =
      s.returned ++ (runResults cfg is s).map (fun r => (s.presenter, r)) := by
  induction is generalizing s with
  | nil => exact (List.append_nil s.returned).symm
  | cons i is ih =>
    rw [performAll, ih, perform_presenter, perform_returned, List.append_assoc, runResults]
    rfl

/-- The results a run adds are what stands behind the records that were there before it. -/
theorem resultsOf_drop_performAll (cfg : Config) (is : List Instr) (s : State) :
    resultsOf ((performAll cfg is s).returned.drop s.returned.length) = runResults cfg is s := by
  rw [performAll_returned, List.drop_left, resultsOf, List.map_map]
  exact List.map_id' _

theorem messagesOf_runResults_cons (cfg : Config) (i : Instr) (is : List Instr) (s : State) :
    messagesOf (runResults cfg (i :: is) s) =
      messagesOf [resultOf cfg i s] ++ messagesOf (runResults cfg is (perform cfg i s)) :=
  messagesOf_append [resultOf cfg i s] _

end Sys2Proof.Machine
end

section
/-! PROOFS. How far one `DEC` and repeated `DEC`s get (R151 to R153). -/

namespace Sys2Proof.Machine

/-- R140: what is kept of a buffer is never a marker, and is kept again. -/
theorem parse_retained (cfg : Config) (a : Bytes) :
    parse cfg (retained a) = (Result.failed .noMessage, retained a) := by
  unfold retained
  split <;> rfl

/-- R150: nothing is found to deliver and the accumulator is at rest; or a marker is dropped; or a
Message is delivered. -/
theorem parse_outcomes (cfg : Config) (a : Bytes) :
    ((parse cfg a).1 = Result.failed .noMessage ∧
      parse cfg (parse cfg a).2 = (Result.failed .noMessage, (parse cfg a).2)) ∨
    (∃ p st, p + 8 ≤ a.length ∧ st ≠ .ok ∧ st ≠ .noMessage ∧
      parse cfg a = (Result.failed st, resync a p)) ∨
    (∃ p m, 4 ≤ msgLenAt a p ∧ p + 8 + msgLenAt a p ≤ a.length ∧
      parse cfg a = (Result.okValue (.message m), consume a (p + 8 + msgLenAt a p))) := by
  obtain ⟨-, h⟩ | ⟨p, -, -, h⟩ | ⟨p, -, hlen, -, h⟩ | ⟨p, -, hlen, -, h⟩ := parse_cases cfg a
  · exact .inl ⟨by rw [h], by rw [h, parse_retained]⟩
  · exact .inl ⟨by rw [h], by rw [h, h]⟩
  · exact .inr (.inl ⟨p, .framingError, by omega, by decide, by decide, h⟩)
  · rw [h]
    obtain ⟨-, h'⟩ | ⟨-, h'⟩ | ⟨h4, m, h'⟩ := openFrame_cases cfg a p
    · exact .inr (.inl ⟨p, .corruptShort, by omega, by decide, by decide, h'⟩)
    · exact .inr (.inl ⟨p, .corruptCrc, by omega, by decide, by decide, h'⟩)
    · exact .inr (.inr ⟨p, m, h4, hlen, h'⟩)

/-- R152, with a Message. -/
theorem parse_shortens_of_ok {cfg : Config} {a : Bytes} (h : (parse cfg a).1.status = .ok) :
    (parse cfg a).2.length + 12 ≤ a.length := by
  obtain ⟨hr, -⟩ | ⟨p, st, -, hok, -, heq⟩ | ⟨p, m, h4, hlen, heq⟩ := parse_outcomes cfg a
  · rw [hr] at h
    cases h
  · rw [heq] at h
    exact absurd h hok
  · rw [heq, consume, List.length_drop]
    omega

/-- R152, with or without a Message. -/
theorem parse_shortens {cfg : Config} {a : Bytes} (h : (parse cfg a).1.status ≠ .noMessage) :
    (parse cfg a).2.length + 2 ≤ a.length := by
  obtain ⟨hr, -⟩ | ⟨p, st, hlen, -, -, heq⟩ | ⟨p, m, -, hlen, heq⟩ := parse_outcomes cfg a
  · rw [hr] at h
    exact absurd rfl h
  · rw [heq, resync, consume, List.length_drop]
    omega
  · rw [heq, consume, List.length_drop]
    omega

/-- R153. -/
theorem parse_rests {cfg : Config} {a : Bytes} (h : (parse cfg a).1.status = .noMessage) :
    (parse cfg a).1 = Result.failed .noMessage ∧
      parse cfg (parse cfg a).2 = (Result.failed .noMessage, (parse cfg a).2) := by
  obtain hrest | ⟨p, st, -, -, hst, heq⟩ | ⟨p, m, -, -, heq⟩ := parse_outcomes cfg a
  · exact hrest
  · rw [heq] at h
    exact absurd h hst
  · rw [heq] at h
    cases h

/-! `DEC.ALL`. -/

theorem decRepeat_of_noMessage {cfg : Config} {s : State}
    (h : (parse cfg s.acc).1.status = .noMessage) (n : Nat) :
    decRepeat cfg (n + 1) s = perform cfg .dec s := if_pos h

theorem decRepeat_of_other {cfg : Config} {s : State}
    (h : (parse cfg s.acc).1.status ≠ .noMessage) (n : Nat) :
    decRepeat cfg (n + 1) s = decRepeat cfg n (perform cfg .dec s) := if_neg h

/-- R151, R152: with enough repetitions allowed the loop is a run of `DEC`s, all but the last with
another status than `NO_MESSAGE`. -/
theorem decRepeat_eq_performAll {cfg : Config} {n : Nat} {s : State} (h : s.acc.length / 2 < n) :
    ∃ rs : List Result, rs.length ≤ s.acc.length / 2 ∧
      decRepeat cfg n s = performAll cfg (List.replicate (rs.length + 1) .dec) s ∧
      runResults cfg (List.replicate (rs.length + 1) .dec) s = rs ++ [Result.failed .noMessage] ∧
      ∀ r ∈ rs, r.status ≠ .noMessage := by
  induction n generalizing s with
  | zero => omega
  | succ n ih =>
    by_cases hst : (parse cfg s.acc).1.status = .noMessage
    · exact ⟨[], Nat.zero_le _, decRepeat_of_noMessage hst n,
        congrArg (fun r => [r]) (parse_rests hst).1, fun r hr => nomatch hr⟩
    · have hshort : (perform cfg .dec s).acc.length + 2 ≤ s.acc.length := parse_shortens hst
      obtain ⟨rs, hlen, hrun, hres, hrs⟩ := ih (s := perform cfg .dec s) (by omega)
      refine ⟨(parse cfg s.acc).1 :: rs, ?_, (decRepeat_of_other hst n).trans hrun,
        congrArg ((parse cfg s.acc).1 :: ·) hres, List.forall_mem_cons.mpr ⟨hst, hrs⟩⟩
      rw [List.length_cons]
      omega

/-- R151, R153: after the loop a further `DEC` finds nothing and changes nothing. -/
theorem parse_decRepeat {cfg : Config} {n : Nat} {s : State} (h : s.acc.length / 2 < n) :
    parse cfg (decRepeat cfg n s).acc =
      (Result.failed .noMessage, (decRepeat cfg n s).acc) := by
  induction n generalizing s with
  | zero => omega
  | succ n ih =>
    by_cases hst : (parse cfg s.acc).1.status = .noMessage
    · rw [decRepeat_of_noMessage hst]
      exact (parse_rests hst).2
    · have hshort : (perform cfg .dec s).acc.length + 2 ≤ s.acc.length := parse_shortens hst
      rw [decRepeat_of_other hst]
      exact ih (by omega)

theorem decAll_eq_performAll (cfg : Config) (s : State) :
    ∃ n, decAll cfg s = performAll cfg (List.replicate n .dec) s := by
  obtain ⟨rs, -, hrun, -⟩ :=
    decRepeat_eq_performAll (cfg := cfg) (Nat.lt_succ_self (s.acc.length / 2))
  exact ⟨_, hrun⟩

theorem parse_decAll (cfg : Config) (s : State) :
    parse cfg (decAll cfg s).acc = (Result.failed .noMessage, (decAll cfg s).acc) :=
  parse_decRepeat (Nat.lt_succ_self _)

theorem perform_dec_result {cfg : Config} {s : State} {r : Result}
    (h : (perform cfg .dec s).returned = s.returned ++ [(s.presenter, r)]) :
    (parse cfg s.acc).1 = r := by
  rw [perform_returned] at h
  simpa [resultOf] using h

end Sys2Proof.Machine

namespace Sys2Proof.Safety

open Sys2Proof.Machine

/-- Settles O46: a Message takes its whole frame along, any other way on takes the marker along. -/
theorem decMakesProgress : Obligations.DecMakesProgress := by
  intro cfg s r hret
  obtain rfl := perform_dec_result hret
  exact ⟨parse_shortens_of_ok, parse_shortens⟩

/-- Settles O47: both `DEC`s parse to `NO_MESSAGE`, and the second leaves what the first left. -/
theorem noMessageIsRestingPoint : Obligations.NoMessageIsRestingPoint := by
  intro cfg s hret
  have hst : (parse cfg s.acc).1.status = .noMessage := by rw [perform_dec_result hret]
  obtain ⟨hfirst, hsecond⟩ := parse_rests hst
  have hdec := perform_dec_of_parse (Prod.ext hfirst rfl : parse cfg s.acc = (_, (parse cfg s.acc).2))
  rw [performAll, hdec, performAll, perform_dec_of_parse hsecond, performAll]
  simp [State.reply, State.setAcc, Result.failed]

/-- Settles O48: each `DEC` before the last removes two bytes at least, so the loop reaches its
`NO_MESSAGE` within its bound. -/
theorem decAllEndsWithNoMessage : Obligations.DecAllEndsWithNoMessage := by
  intro cfg s
  obtain ⟨rs, hlen, hrun, hres, hrs⟩ :=
    decRepeat_eq_performAll (cfg := cfg) (Nat.lt_succ_self (s.acc.length / 2))
  refine ⟨rs, hlen, hrun, ?_, hrs⟩
  rw [decAll, hrun, performAll_returned, hres, List.map_append, List.append_assoc]
  rfl

end Sys2Proof.Safety
end

section
/-! PROOFS. A full accumulator at an incomplete frame (R136, R141, R143, R196). -/

namespace Sys2Proof.Safety

open Sys2Proof.Machine

/-- R136: a full accumulator accepts the empty chunk alone. -/
theorem perform_accPush_acc_of_full {cfg : Config} {s : State} (hcap : cfg.accCap = some s.acc.length)
    (chunk : Bytes) : (perform cfg (.accPush chunk) s).acc = s.acc := by
  simp only [perform_acc]
  split
  next hfits =>
    have hempty : chunk.length = 0 := by simpa [withinCap, hcap] using hfits
    rw [List.eq_nil_of_length_eq_zero hempty, List.append_nil]
  next => rfl

/-- R196 for one operation. -/
theorem perform_standstill {cfg : Config} {s : State} {i : Instr}
    (hcap : cfg.accCap = some s.acc.length) (hpartial : PartialFrameIn s.acc)
    (hi : isPushOrDec i = true) :
    (perform cfg i s).acc = s.acc ∧ messagesOf [resultOf cfg i s] = [] := by
  cases i with
  | accPush chunk =>
    exact ⟨perform_accPush_acc_of_full hcap chunk, messagesOf_resultOf (by simp) s⟩
  | dec =>
    have hparse := hpartial.parse_eq cfg
    exact ⟨congrArg Prod.snd hparse, congrArg (fun r => messagesOf [r.1]) hparse⟩
  | _ => cases hi

theorem performAll_standstill {cfg : Config} {script : List Instr} {s : State}
    (hcap : cfg.accCap = some s.acc.length) (hpartial : PartialFrameIn s.acc)
    (hscript : ∀ i ∈ script, isPushOrDec i = true) :
    (performAll cfg script s).acc = s.acc ∧ messagesOf (runResults cfg script s) = [] := by
  induction script generalizing s with
  | nil => exact ⟨rfl, rfl⟩
  | cons i is ih =>
    obtain ⟨hi, his⟩ := List.forall_mem_cons.mp hscript
    obtain ⟨hacc, hmsg⟩ := perform_standstill hcap hpartial hi
    obtain ⟨haccs, hmsgs⟩ := ih (s := perform cfg i s) (by rwa [hacc]) (by rwa [hacc]) his
    exact ⟨haccs.trans hacc, by rw [messagesOf_runResults_cons, hmsg, hmsgs, List.append_nil]⟩

/-- Settles O53: no operation of the script moves the accumulator, so the next one finds it still
full and still waiting. -/
theorem fullAccumulatorStandstill : Obligations.FullAccumulatorStandstill := by
  intro cfg cap script s hcap hfull hpartial hscript
  subst hfull
  obtain ⟨hacc, hmsg⟩ := performAll_standstill hcap hpartial hscript
  exact ⟨hacc, by rw [resultsOf_drop_performAll, hmsg], rfl⟩

end Sys2Proof.Safety
end

section
/-! PROOFS. One flipped bit in a packet (R96, R145, R147, R156). -/

namespace Sys2Proof.Machine

theorem bytesLe16_injective : Function.Injective bytesLe16 := by
  intro v w h
  obtain ⟨hlo, hhi⟩ : lo v = lo w ∧ hi v = hi w := by simpa [bytesLe16] using h
  rw [← le16_lo_hi v, hlo, hhi, le16_lo_hi]

/-- R145: a region is a body and a CRC field, whatever they hold. -/
theorem exists_body_crcField {r : Bytes} {n : Nat} (h : r.length = n + 2) :
    ∃ body c, r = body ++ bytesLe16 c ∧ body.length = n := by
  obtain ⟨b0, b1, hfield⟩ : ∃ b0 b1, r.drop n = [b0, b1] :=
    List.length_eq_two.mp (by rw [List.length_drop]; omega)
  refine ⟨r.take n, le16 b0 b1, ?_, by rw [List.length_take]; omega⟩
  rw [bytesLe16, lo_le16, hi_le16, ← hfield, List.take_append_drop]

end Sys2Proof.Machine

namespace Sys2Proof.Safety

open Sys2Proof.Machine

/-! Flipping a bit of a sequence. -/

@[simp] theorem length_flipBit (s : Bytes) (i k : Nat) : (flipBit s i k).length = s.length :=
  List.length_set

theorem flipBit_append_left {s : Bytes} {i : Nat} (h : i < s.length) (t : Bytes) (k : Nat) :
    flipBit (s ++ t) i k = flipBit s i k ++ t := by
  rw [flipBit, byteAt_append_left s t i h, List.set_append_left i _ h, flipBit]

theorem flipBit_append_right (s t : Bytes) (i k : Nat) :
    flipBit (s ++ t) (s.length + i) k = s ++ flipBit t i k := by
  rw [flipBit, byteAt_append_right, List.set_append_right _ _ (Nat.le_add_right _ _),
    Nat.add_sub_cancel_left, flipBit]

theorem getElem?_flipBit (s : Bytes) (i k n : Nat) :
    (flipBit s i k)[n]? = s[n]?.map (fun b => if i = n then b ^^^ 1#8 <<< k else b) := by
  rw [flipBit, List.getElem?_set]
  obtain rfl | hne := eq_or_ne i n
  · by_cases hi : i < s.length
    · simp [hi, byteAt_eq_getElem]
    · simp [hi]
  · simp [hne]

theorem flipBit_ne {s : Bytes} {i k : Nat} (hi : i < s.length) (hk : k < 8) : flipBit s i k ≠ s := by
  intro h
  have hbyte : s[i] ^^^ 1#8 <<< k = s[i] := by
    have := getElem?_flipBit s i k i
    simpa [h, List.getElem?_eq_getElem hi, eq_comm] using this
  have hmask : ∀ k < 8, 1#8 <<< k ≠ 0#8 := by decide
  exact hmask k hk ((BitVec.xor_right_inj _).mp (hbyte.trans BitVec.xor_zero.symm))

/-- R105, R156: a bit flipped after obfuscation is the same bit flipped before it. -/
theorem obf_flipBit (cfg : Config) (s : Bytes) (i k : Nat) :
    obf cfg (flipBit s i k) = flipBit (obf cfg s) i k := by
  apply List.ext_getElem?
  intro n
  rw [obf, getElem?_obfFrom, getElem?_flipBit, getElem?_flipBit, obf, getElem?_obfFrom,
    Option.map_map, Option.map_map]
  congr 1
  funext b
  simp only [Function.comp_apply]
  split
  · ac_rfl
  · rfl

/-- R96 (d), R156: a bit flipped in a body or in the CRC field behind it. -/
theorem crc16_ne_of_flipBit {body body' : Bytes} {c' : U16} {i k : Nat} (hi : i < body.length + 2)
    (hk : k < 8) (hbody : body'.length = body.length)
    (h : flipBit (body ++ bytesLe16 (crc16 body)) i k = body' ++ bytesLe16 c') :
    crc16 body' ≠ c' := by
  obtain hin | hout := Nat.lt_or_ge i body.length
  · rw [flipBit_append_left hin] at h
    obtain ⟨rfl, hc⟩ := List.append_inj h (by rw [length_flipBit, hbody])
    rw [← bytesLe16_injective hc]
    exact crcDetectsSingleBitFlip body i k hin hk
  · obtain ⟨m, rfl⟩ := Nat.exists_eq_add_of_le hout
    rw [flipBit_append_right] at h
    obtain ⟨rfl, hc⟩ := List.append_inj h hbody.symm
    rintro rfl
    exact flipBit_ne (by rw [length_bytesLe16]; omega) hk hc

/-! Flipping a bit of a frame. -/

section
variable {a pre region post : Bytes} {msgLen i : Nat} {t0 t1 : Byte}

theorem FrameIn.flipBit_region (h : FrameIn a pre msgLen region t0 t1 post) (hi : i < msgLen + 2)
    (k : Nat) :
    FrameIn (flipBit a (pre.length + 4 + i) k) pre msgLen (flipBit region i k) t0 t1 post where
  layout := by
    have hhead : (pre ++ [0xAB#8, 0xCD#8] ++ bytesLe16 (BitVec.ofNat 16 msgLen)).length =
        pre.length + 4 := by simp
    rw [h.layout, List.append_assoc _ _ post, List.append_assoc _ region, ← hhead,
      flipBit_append_right, flipBit_append_left (by rw [h.size]; exact hi)]
    simp only [List.append_assoc]
  first := h.first
  width := h.width
  size := by rw [length_flipBit, h.size]

theorem FrameIn.flipBit_trailer (h : FrameIn a pre msgLen region t0 t1 post) (hi : i < 2) {k : Nat}
    (hk : k < 8) :
    ∃ t0' t1', (t0' ≠ t0 ∨ t1' ≠ t1) ∧
      FrameIn (flipBit a (pre.length + 6 + msgLen + i) k) pre msgLen region t0' t1' post := by
  obtain ⟨t0', t1', htrailer⟩ : ∃ t0' t1', flipBit [t0, t1] i k = [t0', t1'] :=
    List.length_eq_two.mp (length_flipBit _ i k)
  refine ⟨t0', t1', ?_, ?_, h.first, h.width, h.size⟩
  · have hne : [t0', t1'] ≠ [t0, t1] := htrailer ▸ flipBit_ne (s := [t0, t1]) hi hk
    rw [← not_and_or]
    rintro ⟨rfl, rfl⟩
    exact hne rfl
  · rw [← h.length_before_trailer]
    conv_lhs => rw [h.layout]
    rw [List.append_assoc _ _ post, flipBit_append_right, flipBit_append_left hi, htrailer,
      List.append_assoc _ _ post]

/-- R145: the body and the CRC field are read where they stand in the region. -/
theorem FrameIn.read_region {cfg : Config} {body : Bytes} {c : U16}
    (h : FrameIn a pre msgLen region t0 t1 post) (hregion : obf cfg region = body ++ bytesLe16 c) :
    slice (obf cfg region) 0 msgLen = body ∧ le16At (obf cfg region) msgLen = c := by
  have hbody : body.length = msgLen := by
    have hlen := congrArg List.length hregion
    rw [length_obf, h.size, List.length_append, length_bytesLe16] at hlen
    omega
  rw [hregion, ← hbody]
  exact ⟨slice_of_eq_append (u := []) rfl rfl rfl,
    (le16At_append_right body (bytesLe16 c) 0).trans (le16_lo_hi c)⟩

/-- R147: a CRC field that is not the body's CRC, where it is checked. -/
theorem FrameIn.parse_corruptCrc {cfg : Config} {body : Bytes} {c : U16}
    (h : FrameIn a pre msgLen region TRL0 TRL1 post) (h4 : 4 ≤ msgLen)
    (hcheck : cfg.crcCheck = true) (hregion : obf cfg region = body ++ bytesLe16 c)
    (hcrc : crc16 body ≠ c) :
    parse cfg a = (Result.failed .corruptCrc, resync a pre.length) := by
  obtain ⟨hbody, hfield⟩ := h.read_region hregion
  rw [h.parse_eq_openFrame, openFrame, h.msgLenAt_eq, h.slice_region, if_neg (Nat.not_lt.mpr h4),
    hbody, hfield, if_pos ⟨hcheck, hcrc⟩]

end

theorem frameIn_packetOf_alone {payload : Bytes} (hp : payload.length ≤ 65530) (cfg : Config)
    (type : U16) :
    FrameIn (packetOf cfg type payload) [] (msgLenOf payload.length) (regionOf cfg type payload)
      TRL0 TRL1 [] :=
  List.append_nil (packetOf cfg type payload) ▸ frameIn_packetOf hp cfg type []

/-- R156: behind a flipped bit of a packet's region there are a body and a CRC field that do not go
together. -/
theorem frameIn_flipBit_packetOf {payload : Bytes} (hp : payload.length ≤ 65530) (cfg : Config)
    (type : U16) {i k : Nat} (hi : i < msgLenOf payload.length + 2) (hk : k < 8) :
    ∃ region body c,
      FrameIn (flipBit (packetOf cfg type payload) (4 + i) k) [] (msgLenOf payload.length) region
        TRL0 TRL1 [] ∧
      obf cfg region = body ++ bytesLe16 c ∧ crc16 body ≠ c := by
  have hflipped := (frameIn_packetOf_alone hp cfg type).flipBit_region hi k
  obtain ⟨body, c, hregion, hbody⟩ := exists_body_crcField ((length_obf cfg _).trans hflipped.size)
  refine ⟨_, body, c, by simpa using hflipped, hregion, ?_⟩
  rw [obf_flipBit, obf_regionOf] at hregion
  have hlen := length_bodyOf type payload
  exact crc16_ne_of_flipBit (by rw [hlen]; exact hi) hk (by rw [hbody, hlen]) hregion

/-- Settles O52: a flip in the region leaves the frame whole and its CRC wrong, a flip in the trailer
leaves the frame whole and its trailer wrong. -/
theorem singleBitFlipIsDetected : Obligations.SingleBitFlipIsDetected := by
  intro cfg type payload f s j k hmax henc hj4 hjlen hk hacc
  obtain ⟨hfits, rfl⟩ := serialize_eq_packet_iff.mp henc
  have hp := hfits.trans hmax
  obtain ⟨i, rfl⟩ := Nat.exists_eq_add_of_le hj4
  have h4 : 4 ≤ msgLenOf payload.length := by have := msgLenOf_bounds payload.length; omega
  rw [length_packetOf] at hjlen ⊢
  refine ⟨fun hin hcheck => ?_, fun hin hcheck => ?_, fun hout => ?_⟩
  · obtain ⟨region, body, c, hframe, hregion, hcrc⟩ :=
      frameIn_flipBit_packetOf hp cfg type (i := i) (by omega) hk
    exact perform_dec_of_parse (hacc ▸ hframe.parse_corruptCrc h4 hcheck hregion hcrc)
  · obtain ⟨region, body, c, hframe, hregion, -⟩ :=
      frameIn_flipBit_packetOf hp cfg type (i := i) (by omega) hk
    have hunchecked : cfg.crcCheck = true → crc16 body = c := fun h => by simp [hcheck] at h
    exact ⟨_, perform_dec_of_parse (hacc ▸ hframe.parse_intact h4 hregion hunchecked)⟩
  · obtain ⟨n, rfl⟩ : ∃ n, i = msgLenOf payload.length + 2 + n := Nat.exists_eq_add_of_le (by omega)
    obtain ⟨t0, t1, htrailer, hflipped⟩ :=
      (frameIn_packetOf_alone hp cfg type).flipBit_trailer (i := n) (by omega) hk
    have hplace : 4 + (msgLenOf payload.length + 2 + n) =
        ([] : Bytes).length + 6 + msgLenOf payload.length + n := by
      rw [List.length_nil]
      omega
    rw [hplace] at hacc
    exact perform_dec_of_parse (hacc ▸ hflipped.parse_framingError htrailer cfg)

end Sys2Proof.Safety
end

section
/-! PROOFS. Garbage, a packet, garbage, in any chunks with `DEC`s anywhere (R136, R139 to R150,
R155). -/

namespace Sys2Proof.Machine

/-! A sequence of which only the first bytes are there. -/

/-- R139: the search finds a marker as soon as both its bytes are there. -/
theorem findMarker_of_append {a b : Bytes} {p : Nat} (h : findMarker (a ++ b) = some p)
    (hp : p + 2 ≤ a.length) : findMarker a = some p := by
  obtain ⟨hm, hleast⟩ := findMarker_eq_some_iff.mp h
  refine findMarker_eq_some_iff.mpr ⟨(markerAt_append_left (by omega) b).mp hm, fun q hq hmq => ?_⟩
  exact hleast q hq ((markerAt_append_left hmq.lt_length b).mpr hmq)

theorem msgLenAt_append_left {a : Bytes} {p : Nat} (h : p + 4 ≤ a.length) (b : Bytes) :
    msgLenAt (a ++ b) p = msgLenAt a p := by
  rw [msgLenAt, le16At, byteAt_append_left a b _ (by omega), byteAt_append_left a b _ (by omega),
    ← le16At, ← msgLenAt]

/-- R141, R143: what of a frame is not there yet is waited for. -/
theorem parse_of_append_whole {a b : Bytes} {p : Nat} (h : findMarker (a ++ b) = some p)
    (hp : p + 2 ≤ a.length) (hshort : a.length < p + 8 + msgLenAt (a ++ b) p) (cfg : Config) :
    parse cfg a = (Result.failed .noMessage, a) := by
  refine parse_of_length_lt (findMarker_of_append h hp) ?_ cfg
  obtain hlt | hfield := Nat.lt_or_ge a.length (p + 4)
  · omega
  · rwa [← msgLenAt_append_left hfield b]

/-- R140: only a last byte matters to what is kept, and it is among what is kept. -/
theorem retained_retained_append (a b : Bytes) : retained (retained a ++ b) = retained (a ++ b) := by
  cases b with
  | nil =>
    simp only [List.append_nil]
    unfold retained
    split <;> simp
  | cons x b => simp only [retained, List.getLast?_append_of_ne_nil _ (List.cons_ne_nil x b)]

theorem retained_concat_HDR0 (a : Bytes) : retained (a ++ [HDR0]) = [HDR0] := by
  simp [retained]

end Sys2Proof.Machine

namespace Sys2Proof.Safety

open Sys2Proof.Machine

theorem NoMarker.of_findMarker_append {a b : Bytes} {p : Nat} (h : findMarker (a ++ b) = some p)
    (hp : a.length < p + 2) : NoMarker a := by
  obtain ⟨-, hleast⟩ := findMarker_eq_some_iff.mp h
  intro k (hm : MarkerAt a k)
  have hk := hm.lt_length
  exact hleast k (by omega) ((markerAt_append_left hk b).mpr hm)

theorem noMarker_nil : NoMarker [] := fun k h => by simp at h

theorem NoMarker.of_suffix {a b : Bytes} (h : NoMarker b) (hab : a <:+ b) : NoMarker a := by
  obtain ⟨c, rfl⟩ := hab
  exact h.of_append_right

/-- R140: the bytes dropped from a buffer without a marker belong to no marker that comes later. -/
theorem NoMarker.retained_append {a b : Bytes} (h : NoMarker (a ++ b)) :
    NoMarker (retained a ++ b) :=
  h.of_suffix (List.suffix_append_self_iff.mpr (retained_suffix a))

theorem FrameIn.append_left {a region post g : Bytes} {msgLen : Nat} {t0 t1 : Byte}
    (h : FrameIn a [] msgLen region t0 t1 post) (hg : NoMarker g) :
    FrameIn (g ++ a) g msgLen region t0 t1 post where
  layout := by simp only [h.layout, List.append_assoc, List.nil_append]
  first := hg
  width := h.width
  size := h.size

section
variable {payload g : Bytes} (hp : payload.length ≤ 65530) (hg : NoMarker g)
include hp hg

/-- R149: the garbage before the packet goes with it. -/
theorem parse_garbage_packetOf_append (cfg : Config) (type : U16) (post : Bytes) :
    parse cfg (g ++ packetOf cfg type payload ++ post) =
      (Result.okValue (.message (sentMessage type payload)), post) := by
  have hframe := (frameIn_packetOf hp cfg type post).append_left hg
  rw [← List.append_assoc] at hframe
  rw [hframe.parse_intact (by have := msgLenOf_bounds payload.length; omega)
    (obf_regionOf cfg type payload) fun _ => rfl, messageOf_bodyOf hp]

/-- R155: until the packet is complete, `DEC` finds nothing and drops bytes of the garbage before it
alone. -/
theorem parse_before_packetOf_end (cfg : Config) (type : U16) {a rest : Bytes} (hrest : rest ≠ [])
    (h : a ++ rest = g ++ packetOf cfg type payload) :
    (parse cfg a).1 = Result.failed .noMessage ∧
      ∃ g', NoMarker g' ∧ (parse cfg a).2 ++ rest = g' ++ packetOf cfg type payload := by
  have hframe := (frameIn_packetOf_alone hp cfg type).append_left hg
  rw [← h] at hframe
  have hmarker := hframe.findMarker_eq
  have hlen := hframe.length_eq
  have hpos := List.length_pos_of_ne_nil hrest
  rw [List.length_append, List.length_nil] at hlen
  obtain hbefore | hafter := Nat.lt_or_ge a.length (g.length + 2)
  · have hnone := (NoMarker.of_findMarker_append hmarker hbefore).parse_eq cfg
    rw [hnone]
    refine ⟨rfl, ?_⟩
    obtain ⟨g', rfl, rfl⟩ | ⟨b, rfl, hb⟩ := List.append_eq_append_iff.mp h
    · exact ⟨retained a ++ g', hg.retained_append, (List.append_assoc _ _ _).symm⟩
    · match b with
      | [] =>
        rw [List.append_nil] at h ⊢
        exact ⟨retained g, NoMarker.of_suffix hg (retained_suffix g),
          congrArg (retained g ++ ·) (List.append_cancel_left h)⟩
      | [x] =>
        obtain rfl : HDR0 = x := (List.cons.inj hb).1
        exact ⟨[], noMarker_nil, by rw [retained_concat_HDR0, hb, List.nil_append]⟩
      | x :: y :: b => simp at hbefore
  · rw [parse_of_append_whole hmarker hafter (by rw [hframe.msgLenAt_eq]; omega)]
    exact ⟨rfl, g, hg, h⟩

end

/-! What is still to come, in the accumulator and among the bytes not yet pushed. -/

/-- R155: what may be left of the stream of garbage, the packet of `payload` and the garbage `g2`,
and the Messages that `DEC`s will still deliver from it. -/
inductive StillToCome (cfg : Config) (type : U16) (payload g2 : Bytes) : List Message → Bytes → Prop
  /-- The packet, behind what is left of the garbage before it. -/
  | packet {g : Bytes} (hg : NoMarker g) :
      StillToCome cfg type payload g2 [sentMessage type payload]
        (g ++ packetOf cfg type payload ++ g2)
  /-- Garbage alone, of which a `DEC` at its end keeps what it keeps of `g2`. -/
  | garbage {w : Bytes} (hw : NoMarker w) (hend : retained w = retained g2) :
      StillToCome cfg type payload g2 [] w

section
variable {cfg : Config} {type : U16} {payload g2 : Bytes} {ms : List Message}
  (hp : payload.length ≤ 65530)
include hp

/-- R155 for one `DEC`: it delivers the Message when the packet is complete, and only then. -/
theorem StillToCome.after_parse (hg2 : NoMarker g2) {a pending : Bytes}
    (h : StillToCome cfg type payload g2 ms (a ++ pending)) :
    ∃ ms', ms = messagesOf [(parse cfg a).1] ++ ms' ∧
      StillToCome cfg type payload g2 ms' ((parse cfg a).2 ++ pending) := by
  generalize hw : a ++ pending = w at h
  cases h with
  | garbage hnone hend =>
    subst hw
    rw [hnone.of_append_left.parse_eq cfg]
    exact ⟨[], rfl, .garbage hnone.retained_append ((retained_retained_append a pending).trans hend)⟩
  | @packet g hg =>
    have hcomplete (post : Bytes) (ha : a = g ++ packetOf cfg type payload ++ post)
        (hpost : post ++ pending = g2) :
        messagesOf [(parse cfg a).1] = [sentMessage type payload] ∧
          StillToCome cfg type payload g2 [] ((parse cfg a).2 ++ pending) := by
      rw [ha, parse_garbage_packetOf_append hp hg cfg type post]
      exact ⟨rfl, .garbage (hpost ▸ hg2) (congrArg retained hpost)⟩
    obtain ⟨rest, hcut, rfl⟩ | ⟨post, ha, hpost⟩ := List.append_eq_append_iff.mp hw
    · obtain rfl | hrest := eq_or_ne rest []
      · obtain ⟨hmsg, hleft⟩ := hcomplete [] (by rw [hcut, List.append_nil, List.append_nil]) rfl
        exact ⟨[], by rw [hmsg, List.append_nil], hleft⟩
      · obtain ⟨hnone, g', hg', hleft⟩ := parse_before_packetOf_end hp hg cfg type hrest hcut.symm
        refine ⟨[sentMessage type payload], by rw [hnone]; rfl, ?_⟩
        rw [← List.append_assoc, hleft]
        exact .packet hg'
    · obtain ⟨hmsg, hleft⟩ := hcomplete post ha hpost.symm
      exact ⟨[], by rw [hmsg, List.append_nil], hleft⟩

/-- R155 for one operation: what a push moves into the accumulator was already counted as still to
come. -/
theorem StillToCome.after_perform (hg2 : NoMarker g2) {i : Instr} {is : List Instr} {s : State}
    (hi : isPushOrDec i = true)
    (hroom : withinCap cfg (s.acc ++ pushedBytes (i :: is)).length = true)
    (h : StillToCome cfg type payload g2 ms (s.acc ++ pushedBytes (i :: is))) :
    withinCap cfg ((perform cfg i s).acc ++ pushedBytes is).length = true ∧
      ∃ ms', ms = messagesOf [resultOf cfg i s] ++ ms' ∧
        StillToCome cfg type payload g2 ms' ((perform cfg i s).acc ++ pushedBytes is) := by
  cases i with
  | accPush chunk =>
    rw [pushedBytes, ← List.append_assoc] at hroom h
    have hfits : withinCap cfg (s.acc.length + chunk.length) = true :=
      withinCap_mono cfg (by simp) hroom
    rw [perform_accPush_acc_of_fits hfits, messagesOf_resultOf (by simp)]
    exact ⟨hroom, ms, rfl, h⟩
  | dec =>
    have hshorter : (parse cfg s.acc).2.length ≤ s.acc.length := (parse_suffix cfg s.acc).length_le
    refine ⟨withinCap_mono cfg ?_ hroom, h.after_parse hp hg2⟩
    rw [List.length_append, List.length_append]
    exact Nat.add_le_add_right hshorter _
  | _ => cases hi

/-- R155 for pushes and `DEC`s in any order. -/
theorem StillToCome.after_performAll (hg2 : NoMarker g2) {script : List Instr} {s : State}
    (hscript : ∀ i ∈ script, isPushOrDec i = true)
    (hroom : withinCap cfg (s.acc ++ pushedBytes script).length = true)
    (h : StillToCome cfg type payload g2 ms (s.acc ++ pushedBytes script)) :
    ∃ ms', ms = messagesOf (runResults cfg script s) ++ ms' ∧
      StillToCome cfg type payload g2 ms' (performAll cfg script s).acc := by
  induction script generalizing s ms with
  | nil =>
    rw [pushedBytes, List.append_nil] at h
    exact ⟨ms, rfl, h⟩
  | cons i is ih =>
    obtain ⟨hi, his⟩ := List.forall_mem_cons.mp hscript
    obtain ⟨hroom', ms1, rfl, h1⟩ := h.after_perform hp hg2 hi hroom
    obtain ⟨ms2, rfl, h2⟩ := ih his hroom' h1
    exact ⟨ms2, by rw [messagesOf_runResults_cons, List.append_assoc], h2⟩

/-- R155: where a further `DEC` changes nothing, nothing is left but the end of `g2`. -/
theorem StillToCome.at_rest {a : Bytes} (h : StillToCome cfg type payload g2 ms a)
    (hrest : parse cfg a = (Result.failed .noMessage, a)) : ms = [] ∧ a = retained g2 := by
  cases h with
  | packet hg =>
    rw [parse_garbage_packetOf_append hp hg] at hrest
    cases congrArg (fun r => r.1.status) hrest
  | garbage hnone hend =>
    rw [hnone.parse_eq cfg] at hrest
    exact ⟨rfl, (congrArg Prod.snd hrest).symm.trans hend⟩

end

theorem pushedBytes_replicate_dec (n : Nat) : pushedBytes (List.replicate n .dec) = [] := by
  induction n with
  | zero => rfl
  | succ n ih => exact ih

/-- Settles O50: the whole run is one of pushes and `DEC`s, at the end of which a `DEC` changes
nothing. -/
theorem resynchronisationDeliversExactlyOneMessage :
    Obligations.ResynchronisationDeliversExactlyOneMessage := by
  intro cfg type payload f g1 g2 script s hmax henc hg1 hg2 hscript hpushed hroom hacc
  obtain ⟨hfits, rfl⟩ := serialize_eq_packet_iff.mp henc
  have hp := hfits.trans hmax
  have hrest := parse_decAll cfg (performAll cfg script s)
  obtain ⟨n, hdecs⟩ := decAll_eq_performAll cfg (performAll cfg script s)
  rw [hdecs, ← performAll_append] at hrest
  have hstream : s.acc ++ pushedBytes (script ++ List.replicate n .dec) =
      g1 ++ packetOf cfg type payload ++ g2 := by
    rw [hacc, pushedBytes_append, pushedBytes_replicate_dec, List.append_nil, hpushed,
      List.nil_append]
  have hops : ∀ i ∈ script ++ List.replicate n .dec, isPushOrDec i = true := by
    intro i hi
    obtain hi | hi := List.mem_append.mp hi
    · exact hscript i hi
    · rw [List.eq_of_mem_replicate hi]
      rfl
  obtain ⟨ms, hms, hleft⟩ := StillToCome.after_performAll hp hg2 hops (by rwa [hstream])
    (hstream ▸ StillToCome.packet hg1)
  obtain ⟨rfl, hend⟩ := hleft.at_rest hp hrest
  rw [hdecs, ← performAll_append]
  refine ⟨?_, hend⟩
  rw [resultsOf_drop_performAll, hms, List.append_nil]

end Sys2Proof.Safety
end

section
/-! PROOFS. What a failing operation leaves behind (R171 to R177, R180). -/

namespace Sys2Proof.Machine

theorem resultOf_eq_of_returned {cfg : Config} {i : Instr} {s : State} {r : Result}
    (h : (perform cfg i s).returned = s.returned ++ [(s.presenter, r)]) : resultOf cfg i s = r := by
  rw [perform_returned] at h
  simpa using h

section
variable {cfg : Config} {i : Instr} {s : State} (h : (resultOf cfg i s).status ≠ .ok)
include h

/-- R21: the two operations that write `CRC` return `OK`. -/
theorem perform_crc_of_status_ne_ok : (perform cfg i s).crc = s.crc := by
  rw [perform_crc]
  cases i with
  | crcClr => exact absurd rfl h
  | crcUpd b => exact absurd rfl h
  | _ => rfl

/-- R22: the two operations that write `KIDX` return `OK`. -/
theorem perform_kidx_of_status_ne_ok : (perform cfg i s).kidx = s.kidx := by
  rw [perform_kidx]
  cases i with
  | xorClr => exact absurd rfl h
  | xorByte b => exact absurd rfl h
  | _ => rfl

/-- R23: `ACC.CLR` returns `OK`, and so does a push whose chunk is appended. -/
theorem eq_dec_of_perform_acc_ne (hacc : (perform cfg i s).acc ≠ s.acc) : i = .dec := by
  rw [perform_acc] at hacc
  cases i with
  | dec => rfl
  | accClr => exact absurd rfl h
  | accPush chunk =>
    by_cases hfits : withinCap cfg (s.acc.length + chunk.length) = true
    · exact absurd (congrArg Result.status (if_pos hfits)) h
    · exact absurd (if_neg hfits) hacc
  | _ => exact absurd rfl hacc

end

end Sys2Proof.Machine

namespace Sys2Proof.Safety

open Sys2Proof.Machine

/-- R140 to R149: a `DEC` that waits for the rest of a frame changes nothing, so the failing ones that
do are those without a marker and those that drop one. -/
theorem parse_status_of_changed {cfg : Config} {a : Bytes} (hst : (parse cfg a).1.status ≠ .ok)
    (hchanged : (parse cfg a).2 ≠ a) :
    (parse cfg a).1.status = .noMessage ∧ NoMarker a ∨ (parse cfg a).1.status = .framingError ∨
      (parse cfg a).1.status = .corruptCrc ∨ (parse cfg a).1.status = .corruptShort := by
  obtain ⟨hnone, h⟩ | ⟨p, -, -, h⟩ | ⟨p, -, -, -, h⟩ | ⟨p, -, -, -, h⟩ := parse_cases cfg a
  · exact .inl ⟨by rw [h]; rfl, findMarker_eq_none_iff.mp hnone⟩
  · exact absurd (by rw [h]) hchanged
  · exact .inr (.inl (by rw [h]; rfl))
  · rw [h] at hst ⊢
    obtain ⟨-, h'⟩ | ⟨-, h'⟩ | ⟨-, m, h'⟩ := openFrame_cases cfg a p
    · exact .inr (.inr (.inr (by rw [h']; rfl)))
    · exact .inr (.inr (.inl (by rw [h']; rfl)))
    · exact absurd (by rw [h']; rfl) hst

/-- Settles O55: whatever writes a register returns `OK`, and `DEC` alone can fail after it has
written `ACC`. -/
theorem failingOperationEffect : Obligations.FailingOperationEffect := by
  intro cfg i s r hret hst
  obtain rfl := resultOf_eq_of_returned hret
  refine ⟨perform_crc_of_status_ne_ok hst, perform_kidx_of_status_ne_ok hst, fun hacc => ?_⟩
  obtain rfl := eq_dec_of_perform_acc_ne hst hacc
  exact ⟨rfl, parse_status_of_changed hst hacc⟩

end Sys2Proof.Safety
end

section
/-! PROOFS. Decoding and encoding as inverses, and the illegal command words (R69 to R72). -/

namespace Sys2Proof

/-! From an operation to its command and back. -/

theorem decode_crcUpd (b : Byte) : decode (encode (.crcUpd b)) = .instr (.crcUpd b) := by
  simp [decode, encode, takeNone, opCrcClr, opCrcUpd]

theorem decode_xorByte (b : Byte) : decode (encode (.xorByte b)) = .instr (.xorByte b) := by
  simp [decode, encode, takeNone, opCrcClr, opCrcUpd, opCrcRd, opXorClr, opXorByte]

theorem decode_opEnc (ops : List Operand) : decode ⟨cwOf opEnc 0x00#8, ops⟩ = takeEnc ops := by
  simp [decode, ifImmZero, opCrcClr, opCrcUpd, opCrcRd, opXorClr, opXorByte, opXorRd, opEnc]

theorem decode_opAccPush (ops : List Operand) :
    decode ⟨cwOf opAccPush 0x00#8, ops⟩ = takeAccPush ops := by
  simp [decode, ifImmZero, opCrcClr, opCrcUpd, opCrcRd, opXorClr, opXorByte, opXorRd, opEnc,
    opAccClr, opAccPush]

/-- R75: `plen` counts the bytes of the payload. -/
theorem decode_enc (type : U16) {payload : Bytes} (h : payload.length < 65536) :
    decode (encode (.enc type payload)) = .instr (.enc type payload) := by
  have hplen : payload.length = (BitVec.ofNat 16 payload.length).toNat := (Nat.mod_eq_of_lt h).symm
  rw [encode, decode_opEnc]
  exact if_pos hplen

/-- R75: `clen` counts the bytes of the chunk. -/
theorem decode_accPush {chunk : Bytes} (h : chunk.length < 65536) :
    decode (encode (.accPush chunk)) = .instr (.accPush chunk) := by
  have hclen : chunk.length = (BitVec.ofNat 16 chunk.length).toNat := (Nat.mod_eq_of_lt h).symm
  rw [encode, decode_opAccPush]
  exact if_pos hclen

/-- Settles O2: an operation without a free operand has one command, which is read back by
evaluation; the others need their operand byte, or their length operand, read back. -/
theorem decodeInvertsEncode : Obligations.DecodeInvertsEncode := by
  intro i hwf
  cases i with
  | crcUpd b => exact decode_crcUpd b
  | xorByte b => exact decode_xorByte b
  | enc type payload => exact decode_enc type (of_decide_eq_true hwf)
  | accPush chunk => exact decode_accPush (of_decide_eq_true hwf)
  | _ => rfl

/-- Settles O1: each word is the one that is encoded. -/
theorem tableWordsDecode : Obligations.TableWordsDecode :=
  ⟨decodeInvertsEncode .crcClr rfl, decode_crcUpd 0x31#8, decodeInvertsEncode .crcRd rfl,
    decodeInvertsEncode .xorClr rfl, decode_xorByte 0xFF#8, decodeInvertsEncode .xorRd rfl,
    decode_enc 0xBEEF#16 (by decide), decodeInvertsEncode .accClr rfl, decode_accPush (by decide),
    decodeInvertsEncode .accLen rfl, decodeInvertsEncode .dec rfl⟩

/-- R69: filling in the low byte of a command word. -/
theorem cwOf_or_setWidth (op b : Byte) : cwOf op 0x00#8 ||| b.setWidth 16 = cwOf op b := by
  apply BitVec.eq_of_getLsbD_eq
  intro i h
  simp only [cwOf, BitVec.getLsbD_or, BitVec.getLsbD_append, BitVec.getLsbD_setWidth]
  by_cases h8 : i < 8
  · simp [h8, h]
  · simp [h8, BitVec.getLsbD_of_ge b i (Nat.le_of_not_lt h8)]

/-! From a command to its operation. -/

/-- R71: the operation codes, in the table's order. -/
def operationCodes : List Byte :=
  [opCrcClr, opCrcUpd, opCrcRd, opXorClr, opXorByte, opXorRd, opEnc, opAccClr, opAccPush, opAccLen,
    opDec]

/-- R70, R71: the codes of format B, in which `imm8` is an operand. -/
def formatBCodes : List Byte := [opCrcUpd, opXorByte]

/-- What the reader of a legal command word makes of the operand values: it calls no word illegal,
and an operation it reads has that word and those values as its command. -/
structure ReadsOperands (cw : U16) (ops : List Operand) (d : Decoded) : Prop where
  not_illegalOp : d ≠ .illegalOp
  encodes : ∀ j, d = .instr j → j.wf = true ∧ encode j = ⟨cw, ops⟩

theorem readsOperands_takeNone {cw : U16} {i : Instr} (hwf : i.wf = true)
    (henc : encode i = ⟨cw, []⟩) (ops : List Operand) : ReadsOperands cw ops (takeNone i ops) where
  not_illegalOp := by cases ops <;> simp [takeNone]
  encodes := by
    intro j h
    obtain ⟨rfl, rfl⟩ := takeNone_eq_instr h
    exact ⟨hwf, henc⟩

theorem readsOperands_takeEnc (ops : List Operand) :
    ReadsOperands (cwOf opEnc 0x00#8) ops (takeEnc ops) where
  not_illegalOp := by
    unfold takeEnc
    split
    · split <;> simp
    · simp
  encodes := by
    intro j h
    obtain ⟨type, payload, hlen, rfl, rfl⟩ := takeEnc_eq_instr h
    exact ⟨decide_eq_true hlen, rfl⟩

theorem readsOperands_takeAccPush (ops : List Operand) :
    ReadsOperands (cwOf opAccPush 0x00#8) ops (takeAccPush ops) where
  not_illegalOp := by
    unfold takeAccPush
    split
    · split <;> simp
    · simp
  encodes := by
    intro j h
    obtain ⟨chunk, hlen, rfl, rfl⟩ := takeAccPush_eq_instr h
    exact ⟨decide_eq_true hlen, rfl⟩

theorem ifImmZero_eq_illegalOp_iff {imm : Byte} {d : Decoded} (h : d ≠ .illegalOp) :
    ifImmZero imm d = .illegalOp ↔ imm ≠ 0x00#8 := by
  unfold ifImmZero
  split <;> simp_all

/-- R70, R72: the three ways in which a command can be read, by the format of its code. -/
inductive ReadAs (c : Command) : Decoded → Prop
  /-- Format B: every `imm8` is an operand. -/
  | formatB {d : Decoded} (hop : cwOp c.cw ∈ formatBCodes) (hd : ReadsOperands c.cw c.operands d) :
      ReadAs c d
  /-- Formats Z and S: `imm8` must be zero. -/
  | formatZS {d : Decoded} (hop : cwOp c.cw ∈ operationCodes) (hb : cwOp c.cw ∉ formatBCodes)
      (hd : ReadsOperands (cwOf (cwOp c.cw) 0x00#8) c.operands d) :
      ReadAs c (ifImmZero (cwImm c.cw) d)
  /-- A code of no operation. -/
  | noCode (hop : cwOp c.cw ∉ operationCodes) : ReadAs c .illegalOp

theorem readAs_of_formatB {c : Command} {op : Byte} {i : Instr} (hop : cwOp c.cw = op)
    (hb : op ∈ formatBCodes) (hwf : i.wf = true) (henc : encode i = ⟨cwOf op (cwImm c.cw), []⟩) :
    ReadAs c (takeNone i c.operands) := by
  subst hop
  rw [cwOf_cwOp_cwImm] at henc
  exact .formatB hb (readsOperands_takeNone hwf henc _)

theorem readAs_of_formatZS {c : Command} {op : Byte} {d : Decoded} (hop : cwOp c.cw = op)
    (hcode : op ∈ operationCodes ∧ op ∉ formatBCodes)
    (hd : ReadsOperands (cwOf op 0x00#8) c.operands d) :
    ReadAs c (ifImmZero (cwImm c.cw) d) := by
  subst hop
  exact .formatZS hcode.1 hcode.2 hd

theorem readAs_of_formatZ {c : Command} {op : Byte} {i : Instr} (hop : cwOp c.cw = op)
    (hcode : op ∈ operationCodes ∧ op ∉ formatBCodes) (hwf : i.wf = true)
    (henc : encode i = ⟨cwOf op 0x00#8, []⟩) :
    ReadAs c (ifImmZero (cwImm c.cw) (takeNone i c.operands)) :=
  readAs_of_formatZS hop hcode (readsOperands_takeNone hwf henc _)

/-- R69 to R72: one branch of the decoder for each row of the table, and the last for every other
code. -/
theorem decode_readAs (c : Command) : ReadAs c (decode c) := by
  simp only [decode]
  refine iteInduction (fun hop => readAs_of_formatZ hop (by decide) rfl rfl) fun _ => ?_
  refine iteInduction (fun hop => readAs_of_formatB hop (by decide) rfl rfl) fun _ => ?_
  refine iteInduction (fun hop => readAs_of_formatZ hop (by decide) rfl rfl) fun _ => ?_
  refine iteInduction (fun hop => readAs_of_formatZ hop (by decide) rfl rfl) fun _ => ?_
  refine iteInduction (fun hop => readAs_of_formatB hop (by decide) rfl rfl) fun _ => ?_
  refine iteInduction (fun hop => readAs_of_formatZ hop (by decide) rfl rfl) fun _ => ?_
  refine iteInduction
    (fun hop => readAs_of_formatZS hop (by decide) (readsOperands_takeEnc _)) fun _ => ?_
  refine iteInduction (fun hop => readAs_of_formatZ hop (by decide) rfl rfl) fun _ => ?_
  refine iteInduction
    (fun hop => readAs_of_formatZS hop (by decide) (readsOperands_takeAccPush _)) fun _ => ?_
  refine iteInduction (fun hop => readAs_of_formatZ hop (by decide) rfl rfl) fun _ => ?_
  refine iteInduction (fun hop => readAs_of_formatZ hop (by decide) rfl rfl) fun _ => ?_
  exact .noCode (by simp [operationCodes, *])

/-- Settles O3: in format B the whole command word is the operation's, and in the others `imm8` is
zero in both. -/
theorem encodeInvertsDecode : Obligations.EncodeInvertsDecode := by
  intro c i h
  have hread := decode_readAs c
  generalize decode c = d at h hread
  cases hread with
  | formatB hop hd => exact hd.encodes i h
  | formatZS hop hb hd =>
    obtain ⟨himm, hinstr⟩ := ifImmZero_eq_instr h
    obtain ⟨hwf, henc⟩ := hd.encodes i hinstr
    rw [← himm, cwOf_cwOp_cwImm] at henc
    exact ⟨hwf, henc⟩
  | noCode hop => cases h

/-- R72. -/
theorem decode_eq_illegalOp_iff (c : Command) :
    decode c = .illegalOp ↔
      cwOp c.cw ∉ operationCodes ∨ (cwOp c.cw ∉ formatBCodes ∧ cwImm c.cw ≠ 0x00#8) := by
  have hread := decode_readAs c
  generalize decode c = d at hread
  cases hread with
  | formatB hop hd =>
    have hcode : ∀ op ∈ formatBCodes, op ∈ operationCodes := by decide
    simp [hd.not_illegalOp, hop, hcode _ hop]
  | formatZS hop hb hd => simp [ifImmZero_eq_illegalOp_iff hd.not_illegalOp, hop, hb]
  | noCode hop => simp [hop]

end Sys2Proof
end

section
/-! PROOFS. One step, by the event that is presented first (R27, R49, R72, R190). -/

namespace Sys2Proof.Machine

theorem fetch_of_operandsNotOfFormat {s : State} {a : Agent} {c : Command} {rest : List Event}
    (h : s.presented = .operation a c :: rest) (hd : decode c = .operandsNotOfFormat) :
    fetch s = .malformed c.cw := by
  simp [fetch, h, hd]

theorem step_of_nil {s : State} (h : s.presented = []) : step s = .next s := by
  rw [step, fetch_of_nil h]

theorem step_of_reset {s : State} {rest : List Event} (h : s.presented = .reset :: rest) :
    step s = .next (State.resetBlock { s with presented := rest }) := by
  rw [step, fetch_of_reset h]

theorem step_of_instr {s : State} {a : Agent} {c : Command} {rest : List Event} {i : Instr}
    (h : s.presented = .operation a c :: rest) (hd : decode c = .instr i) :
    step s = exec i (s.taking a rest) := by
  rw [step, fetch_of_instr h hd]

theorem step_of_illegalOp {s : State} {a : Agent} {c : Command} {rest : List Event}
    (h : s.presented = .operation a c :: rest) (hd : decode c = .illegalOp) :
    step s = .next ((s.taking a rest).raise .illegalOp) := by
  rw [step, fetch_of_illegalOp h hd]
  rfl

theorem step_of_operandsNotOfFormat {s : State} {a : Agent} {c : Command} {rest : List Event}
    (h : s.presented = .operation a c :: rest) (hd : decode c = .operandsNotOfFormat) :
    step s = .refused (.operandsNotOfFormat c.cw) := by
  rw [step, fetch_of_operandsNotOfFormat h hd]

/-- A step answers a next state, or it refuses operand values that are not of the format of a legal
command word. -/
theorem step_next_or_refused (s : State) :
    (∃ t, step s = .next t) ∨
    ∃ a c rest, s.presented = .operation a c :: rest ∧ decode c = .operandsNotOfFormat ∧
      step s = .refused (.operandsNotOfFormat c.cw) := by
  match hp : s.presented with
  | [] => exact .inl ⟨_, step_of_nil hp⟩
  | .reset :: rest => exact .inl ⟨_, step_of_reset hp⟩
  | .operation a c :: rest =>
    cases hd : decode c with
    | instr i => exact .inl ⟨_, (step_of_instr hp hd).trans (exec_eq_perform i _)⟩
    | illegalOp => exact .inl ⟨_, step_of_illegalOp hp hd⟩
    | operandsNotOfFormat =>
      exact .inr ⟨a, c, rest, rfl, hd, step_of_operandsNotOfFormat hp hd⟩

end Sys2Proof.Machine

namespace Sys2Proof.Safety

open Sys2Proof.Machine

/-- Settles O4: the condition on the word is the decoder's own, and such a word leads to one more
record and nothing else. -/
theorem illegalWordsChangeNothing : Obligations.IllegalWordsChangeNothing :=
  ⟨rfl, fun cw ops =>
    ⟨decode_eq_illegalOp_iff ⟨cw, ops⟩, fun _ _ _ hp hd => step_of_illegalOp hp hd⟩⟩

/-- Settles O7: the one refusal is the one for operand values that are not of the format. -/
theorem stepStopsOnlyOnMalformedOperands : Obligations.StepStopsOnlyOnMalformedOperands := by
  intro s
  obtain ⟨t, hnext⟩ | ⟨a, c, rest, hp, hd, hrefused⟩ := step_next_or_refused s
  · simp [hnext]
  · refine ⟨by simp [hrefused], fun r hr => ⟨a, c, rest, hp, hd, ?_⟩⟩
    rw [hrefused] at hr
    exact (Host.Outcome.refused.inj hr).symm

/-- Settles O5: the operation is fetched with its event taken off the list. -/
theorem stepRunsPresentedOperation : Obligations.StepRunsPresentedOperation :=
  fun _ _ _ _ _ hp hd => step_of_instr hp hd

/-- Settles O6: reset writes the three elements with the values the three clear operations write. -/
theorem stepIdlesAndResets : Obligations.StepIdlesAndResets :=
  ⟨fun _ => step_of_nil, fun _ _ => step_of_reset, fun _ _ => ⟨rfl, rfl, rfl⟩⟩

/-- Settles O8: the empty accumulator fits whatever the capacity. -/
theorem resetLeavesSpecValues : Obligations.ResetLeavesSpecValues :=
  ⟨rfl, rfl, rfl, rfl, Memory.wf_reset hardware⟩

/-! The capacity. -/

/-- R20, R23 for one operation, under every configuration: a push is accepted only where it fits, and
`DEC` leaves a suffix. -/
theorem AccWithinCap.perform {cfg : Config} {s : State} (h : AccWithinCap cfg s) (i : Instr) :
    AccWithinCap cfg (perform cfg i s) := by
  rw [AccWithinCap, perform_acc]
  cases i with
  | accClr => exact Memory.wf_nil cfg
  | accPush chunk =>
    simp only
    split
    next hfits => exact Memory.wf_append cfg s.acc chunk hfits
    next => exact h
  | dec => exact Memory.wf_suffix cfg (parse_suffix cfg s.acc) h
  | _ => exact h

/-- Settles O58: a step leaves the accumulator alone, empties it, or performs one operation on it. -/
theorem capacityInvariant : Obligations.CapacityInvariant := by
  intro s t h hstep
  obtain ⟨-, rfl⟩ | ⟨rest, -, rfl⟩ | ⟨a, c, rest, i, -, -, rfl⟩ | ⟨a, c, rest, -, -, rfl⟩ :=
    step_cases hstep
  · exact h
  · exact Memory.wf_nil hardware
  · exact AccWithinCap.perform (s := s.taking a rest) h i
  · exact h

end Sys2Proof.Safety
end

section
/-! PROOFS. The unit of each operation, and the one element of the block that it reads and writes (R2,
R20 to R23, R198). -/

namespace Sys2Proof.Safety

open Sys2Proof.Machine

/-- R2, R20: the two states agree on the element of a unit. -/
def SameUnit : BlockUnit → State → State → Prop
  | .uCrc, s, t => s.crc = t.crc
  | .uXor, s, t => s.kidx = t.kidx
  | .uFrm, s, t => s.acc = t.acc

theorem sameBlock_iff {s t : State} : SameBlock s t ↔ ∀ u, SameUnit u s t :=
  ⟨fun ⟨hcrc, hkidx, hacc⟩ u => by cases u <;> assumption, fun h => ⟨h .uCrc, h .uXor, h .uFrm⟩⟩

section
variable {u : BlockUnit} {s t r : State}

theorem SameUnit.symm (h : SameUnit u s t) : SameUnit u t s := by
  cases u <;> exact Eq.symm h

theorem SameUnit.trans (h : SameUnit u s t) (h' : SameUnit u t r) : SameUnit u s r := by
  cases u <;> exact Eq.trans h h'

end

/-- R21 to R23: an operation writes the element of its own unit alone. -/
theorem perform_sameUnit_of_ne {i : Instr} {u : BlockUnit} (h : unitOf i ≠ u) (cfg : Config)
    (s : State) : SameUnit u (perform cfg i s) s := by
  cases u with
  | uCrc =>
    rw [SameUnit, perform_crc]
    cases i with
    | crcClr => exact absurd rfl h
    | crcUpd b => exact absurd rfl h
    | _ => rfl
  | uXor =>
    rw [SameUnit, perform_kidx]
    cases i with
    | xorClr => exact absurd rfl h
    | xorByte b => exact absurd rfl h
    | _ => rfl
  | uFrm =>
    rw [SameUnit, perform_acc]
    cases i with
    | accClr => exact absurd rfl h
    | accPush chunk => exact absurd rfl h
    | dec => exact absurd rfl h
    | _ => rfl

/-- R21 to R23: what an operation writes there depends on that element alone. -/
theorem SameUnit.perform {u : BlockUnit} {s t : State} (h : SameUnit u s t) (cfg : Config)
    (i : Instr) : SameUnit u (perform cfg i s) (perform cfg i t) := by
  by_cases hu : unitOf i = u
  · subst hu
    cases i <;> simp_all [SameUnit, unitOf, perform_crc, perform_kidx, perform_acc]
  · exact ((perform_sameUnit_of_ne hu cfg s).trans h).trans (perform_sameUnit_of_ne hu cfg t).symm

/-- R74: the record depends on the element of the operation's unit alone. -/
theorem SameUnit.resultOf_eq {i : Instr} {s t : State} (h : SameUnit (unitOf i) s t)
    (cfg : Config) : resultOf cfg i s = resultOf cfg i t := by
  cases i <;> simp_all [SameUnit, unitOf, resultOf]

/-- R198 on one element: the operation of another unit may as well come first. -/
theorem perform_comm_sameUnit {i : Instr} {u : BlockUnit} (h : unitOf i ≠ u) (cfg : Config)
    (j : Instr) (s : State) :
    SameUnit u (perform cfg j (perform cfg i s)) (perform cfg i (perform cfg j s)) :=
  ((perform_sameUnit_of_ne h cfg s).perform cfg j).trans (perform_sameUnit_of_ne h cfg _).symm

/-- Settles O56: every element is written by at most one of the two, and each reads its own. -/
theorem unitsDoNotInterfere : Obligations.UnitsDoNotInterfere := by
  intro cfg i j s hne
  refine ⟨sameBlock_iff.mpr fun u => ?_, resultOf cfg i s, resultOf cfg j s, ?_, ?_⟩
  · by_cases hi : unitOf i = u
    · exact (perform_comm_sameUnit (hi ▸ hne.symm) cfg i s).symm
    · exact perform_comm_sameUnit hi cfg j s
  · rw [performAll_returned, runResults, runResults,
      (perform_sameUnit_of_ne hne cfg s).resultOf_eq cfg]
    rfl
  · rw [performAll_returned, runResults, runResults,
      (perform_sameUnit_of_ne hne.symm cfg s).resultOf_eq cfg]
    rfl

/-- Settles O57: the registers are no element of U_FRM, and its operations read the accumulator. -/
theorem framerIgnoresStandaloneRegisters : Obligations.FramerIgnoresStandaloneRegisters := by
  intro i s t c k hunit hexec
  rw [exec_eq_next] at hexec
  subst hexec
  have hother {u : BlockUnit} (hu : BlockUnit.uFrm ≠ u) : SameUnit u (perform hardware i s) s :=
    perform_sameUnit_of_ne (hunit ▸ hu) hardware s
  refine ⟨hother (u := .uCrc) (by decide), hother (u := .uXor) (by decide), ?_⟩
  rw [exec_eq_perform]
  cases i with
  | accPush chunk =>
    simp only [perform, afterAccPush]
    split <;> rfl
  | enc type payload => rfl
  | accClr => rfl
  | accLen => rfl
  | dec => rfl
  | _ => cases hunit

/-- Settles O54: where an element differs afterwards, the operation is one with an arm of its own in
the lemma on that element. -/
theorem onlyNamedOperationsWriteEachElement : Obligations.OnlyNamedOperationsWriteEachElement := by
  intro i s t hexec
  rw [exec_eq_next] at hexec
  subst hexec
  rw [perform_crc, perform_kidx, perform_acc]
  cases i <;> simp

/-! States that agree on the whole block. -/

theorem SameBlock.trans {s t r : State} (h : SameBlock s t) (h' : SameBlock t r) : SameBlock s r :=
  sameBlock_iff.mpr fun u => (sameBlock_iff.mp h u).trans (sameBlock_iff.mp h' u)

theorem SameBlock.perform {s t : State} (h : SameBlock s t) (cfg : Config) (i : Instr) :
    SameBlock (perform cfg i s) (perform cfg i t) :=
  sameBlock_iff.mpr fun u => (sameBlock_iff.mp h u).perform cfg i

theorem SameBlock.performAll {s t : State} (h : SameBlock s t) (cfg : Config) (is : List Instr) :
    SameBlock (performAll cfg is s) (performAll cfg is t) := by
  induction is generalizing s t with
  | nil => exact h
  | cons i is ih => exact ih (h.perform cfg i)

/-- R74: what is returned depends on the block alone, not on who presented or on what was returned
before. -/
theorem SameBlock.runResults_eq {s t : State} (h : SameBlock s t) (cfg : Config)
    (is : List Instr) : runResults cfg is s = runResults cfg is t := by
  induction is generalizing s t with
  | nil => rfl
  | cons i is ih =>
    rw [runResults, (sameBlock_iff.mp h _).resultOf_eq cfg, ih (h.perform cfg i), runResults]

end Sys2Proof.Safety
end

section
/-! PROOFS. Presented lists of operations, and the order in which each agent is answered (R49, R74,
R204). -/

namespace Sys2Proof.Safety

open Sys2Proof.Machine

theorem answersTo_append (a : Agent) (l m : List (Agent × Result)) :
    answersTo a (l ++ m) = answersTo a l ++ answersTo a m := by
  induction l with
  | nil => rfl
  | cons p l ih =>
    obtain ⟨b, r⟩ := p
    simp only [List.cons_append, answersTo, ih]
    split <;> rfl

/-- R49 (a), R74: the agent of the event taken gets the record, and every other agent gets nothing. -/
theorem answered_of_taken {s t : State} {b : Agent} {c : Command} {rest : List Event} {r : Result}
    (hs : s.presented = .operation b c :: rest) (ht : t.presented = rest)
    (hret : t.returned = s.returned ++ [(b, r)]) (a : Agent) :
    (commandsOf a t.presented = commandsOf a s.presented ∧
      answersTo a t.returned = answersTo a s.returned) ∨
    ∃ c r, commandsOf a s.presented = c :: commandsOf a t.presented ∧
      answersTo a t.returned = answersTo a s.returned ++ [r] := by
  rw [hs, ht, hret, answersTo_append]
  by_cases hb : b = a
  · exact .inr ⟨c, r, by simp [commandsOf, hb], by simp [answersTo, hb]⟩
  · exact .inl ⟨by simp [commandsOf, hb], by simp [answersTo, hb]⟩

/-- Settles O9: the reset event is no agent's, and an operation or an illegal word is one agent's. -/
theorem eachAgentAnsweredInItsOwnOrder : Obligations.EachAgentAnsweredInItsOwnOrder := by
  intro s t hstep a
  obtain ⟨-, rfl⟩ | ⟨rest, hp, rfl⟩ | ⟨b, c, rest, i, hp, -, rfl⟩ | ⟨b, c, rest, hp, -, rfl⟩ :=
    step_cases hstep
  · exact .inl ⟨rfl, rfl⟩
  · exact .inl ⟨by rw [hp]; rfl, rfl⟩
  · exact answered_of_taken hp (perform_presented hardware i _) (perform_returned hardware i _) a
  · exact answered_of_taken hp rfl rfl a

/-! A presented list. -/

theorem length_runResults (cfg : Config) (is : List Instr) (s : State) :
    (runResults cfg is s).length = is.length := by
  induction is generalizing s with
  | nil => rfl
  | cons i is ih => exact congrArg (· + 1) (ih _)

theorem run_succ_of_step {s t : State} (h : step s = .next t) (n : Nat) :
    Host.Core.run Sys2Proof.core (n + 1) s = Host.Core.run Sys2Proof.core n t := by
  have hcore : Sys2Proof.core.step s = .next t := h
  simp only [Host.Core.run, hcore]

theorem sameBlock_taking (s : State) (a : Agent) (rest : List Event) :
    SameBlock (s.taking a rest) s := ⟨rfl, rfl, rfl⟩

/-- R49, R204: one step for each operation, whose record goes to its own agent. -/
theorem run_of_presented (ops : List (Agent × Instr)) {s : State} (hwf : ∀ p ∈ ops, p.2.wf = true)
    (hp : s.presented = ops.map fun p => Event.operation p.1 (encode p.2)) :
    ∃ t : State, Host.Core.run Sys2Proof.core ops.length s = .next t ∧ t.presented = [] ∧
      SameBlock t (performAll hardware (ops.map Prod.snd) s) ∧
      t.returned = s.returned ++
        (ops.map Prod.fst).zip (runResults hardware (ops.map Prod.snd) s) := by
  induction ops generalizing s with
  | nil => exact ⟨s, rfl, hp, ⟨rfl, rfl, rfl⟩, (List.append_nil _).symm⟩
  | cons p ops ih =>
    obtain ⟨a, i⟩ := p
    obtain ⟨hwfi, hwfs⟩ := List.forall_mem_cons.mp hwf
    let rest := ops.map fun p => Event.operation p.1 (encode p.2)
    have hstep : step s = .next (perform hardware i (s.taking a rest)) :=
      (step_of_instr hp (decodeInvertsEncode i hwfi)).trans (exec_eq_perform i _)
    have hsame : SameBlock (perform hardware i (s.taking a rest)) (perform hardware i s) :=
      (sameBlock_taking s a rest).perform hardware i
    obtain ⟨t, hrun, hnone, hblock, hret⟩ := ih hwfs (perform_presented hardware i (s.taking a rest))
    refine ⟨t, (run_succ_of_step hstep _).trans hrun, hnone, ?_, ?_⟩
    · exact hblock.trans (hsame.performAll hardware (ops.map Prod.snd))
    · have hrecord := (sameBlock_iff.mp (sameBlock_taking s a rest) _).resultOf_eq (i := i) hardware
      rw [hret, perform_returned, hrecord, hsame.runResults_eq, List.append_assoc]
      rfl

/-- Settles O10: as many results as operations are added, one with each operation's agent. -/
theorem runPerformsPresentedList : Obligations.RunPerformsPresentedList := by
  intro ops s hwf hp
  obtain ⟨t, hrun, hnone, hblock, hret⟩ := run_of_presented ops hwf hp
  have hlen : (ops.map Prod.fst).length = (runResults hardware (ops.map Prod.snd) s).length := by
    rw [length_runResults, List.length_map, List.length_map]
  refine ⟨t, hrun, hblock, hnone, ?_, ?_⟩
  · rw [hret, performAll_returned, resultsOf_append, resultsOf_append, resultsOf, resultsOf,
      List.map_snd_zip hlen.ge, resultsOf, List.map_map]
    exact congrArg (_ ++ ·) (List.map_id' _).symm
  · rw [hret, List.drop_left, List.map_fst_zip hlen.le]

end Sys2Proof.Safety
end

section
/-! PROOFS. The stream of packets: what is delivered, buffered and still to come (R50, R155). -/

namespace Sys2Proof.Safety

open Sys2Proof.Machine

/-! One `DEC` on the beginning of a sequence of packets. -/

/-- R141, R143: a packet of which the last bytes are missing is waited for. -/
theorem parse_of_append_eq_packetOf {payload : Bytes} (hp : payload.length ≤ 65530) {cfg : Config}
    {type : U16} {a rest : Bytes} (hrest : rest ≠ []) (h : a ++ rest = packetOf cfg type payload) :
    parse cfg a = (Result.failed .noMessage, a) := by
  obtain ⟨hnone, g, -, hleft⟩ := parse_before_packetOf_end hp noMarker_nil cfg type hrest h
  have hlong : a.length ≤ (parse cfg a).2.length := by
    have hlen := congrArg List.length hleft
    rw [← h, List.length_append, List.length_append, List.length_append] at hlen
    omega
  exact Prod.ext hnone ((parse_suffix cfg a).eq_of_length_le hlong)

/-- R155: `DEC` waits, or it delivers the first Message and leaves the beginning of the others'
packets. -/
theorem parse_of_prefix_packets {cfg : Config} {ms : List (U16 × Bytes)}
    (hms : ∀ m ∈ ms, m.2.length ≤ 65530) {a pending : Bytes}
    (h : a ++ pending <+: (ms.map fun m => packetOf cfg m.1 m.2).flatten) :
    parse cfg a = (Result.failed .noMessage, a) ∨
    ∃ m ms' post, ms = m :: ms' ∧
      parse cfg a = (Result.okValue (.message (sentMessage m.1 m.2)), post) ∧
      post ++ pending <+: (ms'.map fun m => packetOf cfg m.1 m.2).flatten := by
  cases ms with
  | nil =>
    obtain ⟨rfl, -⟩ := List.append_eq_nil_iff.mp (List.prefix_nil.mp h)
    exact .inl rfl
  | cons m ms' =>
    have hp : m.2.length ≤ 65530 := hms m List.mem_cons_self
    have hwhole (post : Bytes) := parse_packetOf_append hp cfg m.1 post
    obtain ⟨later, hlater⟩ := h
    rw [List.append_assoc, List.map_cons, List.flatten_cons] at hlater
    obtain ⟨rest, hcut, hrest⟩ | ⟨post, rfl, hpost⟩ := List.append_eq_append_iff.mp hlater
    · obtain rfl | hne := eq_or_ne rest []
      · rw [List.append_nil] at hcut
        refine .inr ⟨m, ms', [], rfl, ?_, later, hrest⟩
        rw [← hcut, ← List.append_nil (packetOf cfg m.1 m.2), hwhole []]
      · exact .inl (parse_of_append_eq_packetOf hp hne hcut.symm)
    · exact .inr ⟨m, ms', post, rfl, hwhole post, later, by rw [hpost, List.append_assoc]⟩

/-! One operation. -/

section
variable {cfg : Config} {sent : List (U16 × Bytes)} {s : State} {pending : Bytes}

/-- Bytes may move from what is still to come into the accumulator, and a record may be returned that
holds no Message. -/
theorem StreamInv.of_no_message (h : StreamInv cfg sent s pending) {t : State} {later : Bytes}
    {a : Agent} {r : Result} (hbytes : t.acc ++ later = s.acc ++ pending)
    (hret : t.returned = s.returned ++ [(a, r)]) (hr : messagesOf [r] = []) :
    StreamInv cfg sent t later := by
  obtain ⟨hroom, delivered, waiting, hsent, hmsgs, hprefix⟩ := h
  refine ⟨?_, delivered, waiting, hsent, ?_, hbytes ▸ hprefix⟩
  · rwa [← List.length_append, hbytes, List.length_append]
  · rw [hret, resultsOf_append, messagesOf_append, hmsgs]
    exact (congrArg (_ ++ ·) hr).trans (List.append_nil _)

variable (hsent : ∀ m ∈ sent, m.2.length ≤ 65530)
include hsent

/-- R155 for one `DEC`. -/
theorem StreamInv.perform_dec (h : StreamInv cfg sent s pending) :
    StreamInv cfg sent (perform cfg .dec s) pending ∧
      ((parse cfg s.acc).1.status = .ok ∨ (parse cfg s.acc).1.status = .noMessage) := by
  obtain ⟨hroom, delivered, waiting, rfl, hmsgs, hprefix⟩ := id h
  have hwaiting : ∀ m ∈ waiting, m.2.length ≤ 65530 :=
    fun m hm => hsent m (List.mem_append_right delivered hm)
  obtain hwait | ⟨m, ms, post, rfl, hmessage, hleft⟩ := parse_of_prefix_packets hwaiting hprefix
  · rw [perform_dec_of_parse hwait, hwait]
    exact ⟨h.of_no_message rfl rfl rfl, .inr rfl⟩
  · have hshorter : post.length ≤ s.acc.length := by
      simpa [hmessage] using (parse_suffix cfg s.acc).length_le
    rw [perform_dec_of_parse hmessage, hmessage]
    refine ⟨⟨withinCap_mono cfg (Nat.add_le_add_right hshorter _) hroom, delivered ++ [m], ms,
      (List.append_assoc _ [m] ms).symm, ?_, hleft⟩, .inl rfl⟩
    rw [State.reply_returned, resultsOf_append, messagesOf_append, State.setAcc_returned, hmsgs,
      List.map_append]
    rfl

/-- R155 for one operation. -/
theorem StreamInv.perform {i : Instr} (hi : i ≠ .accClr)
    (h : StreamInv cfg sent s (pushedBytes [i] ++ pending)) :
    StreamInv cfg sent (perform cfg i s) pending := by
  cases i with
  | accClr => exact absurd rfl hi
  | dec => exact (h.perform_dec hsent).1
  | accPush chunk =>
    have hfits : withinCap cfg (s.acc.length + chunk.length) = true :=
      withinCap_mono cfg (by simp [pushedBytes]) h.1
    refine h.of_no_message ?_ (perform_returned cfg _ s) (messagesOf_resultOf (by simp) s)
    rw [perform_accPush_acc_of_fits hfits]
    simp [pushedBytes]
  | _ =>
    refine h.of_no_message ?_ (perform_returned cfg _ s) (messagesOf_resultOf (by simp) s)
    rw [perform_acc]
    rfl

/-- R155: a push finds room, and `DEC` finds a whole packet or waits. -/
theorem StreamInv.status_resultOf {i : Instr} (hi : isPushOrDec i = true)
    (h : StreamInv cfg sent s (pushedBytes [i] ++ pending)) :
    (resultOf cfg i s).status = .ok ∨ (resultOf cfg i s).status = .noMessage := by
  cases i with
  | dec => exact (h.perform_dec hsent).2
  | accPush chunk =>
    have hfits : withinCap cfg (s.acc.length + chunk.length) = true :=
      withinCap_mono cfg (by simp [pushedBytes]) h.1
    exact .inl (congrArg Result.status (if_pos hfits))
  | _ => cases hi

/-- R155 for pushes and `DEC`s in any order. -/
theorem StreamInv.performAll {script : List Instr} (hscript : ∀ i ∈ script, isPushOrDec i = true)
    (h : StreamInv cfg sent s (pushedBytes script)) :
    StreamInv cfg sent (performAll cfg script s) [] ∧
      ∀ r ∈ runResults cfg script s, r.status = .ok ∨ r.status = .noMessage := by
  induction script generalizing s with
  | nil => exact ⟨h, fun r hr => nomatch hr⟩
  | cons i is ih =>
    obtain ⟨hi, his⟩ := List.forall_mem_cons.mp hscript
    rw [← List.singleton_append, pushedBytes_append] at h
    have hne : i ≠ .accClr := by
      rintro rfl
      cases hi
    obtain ⟨hinv, hstatus⟩ := ih his (h.perform hsent hne)
    exact ⟨hinv, List.forall_mem_cons.mpr ⟨h.status_resultOf hsent hi, hstatus⟩⟩

end

/-! One step. -/

theorem pendingBytes_of_instr {a : Agent} {c : Command} {i : Instr} (hd : decode c = .instr i)
    (rest : List Event) :
    pendingBytes (.operation a c :: rest) = pushedBytes [i] ++ pendingBytes rest := by
  rw [pendingBytes, hd]

theorem pendingBytes_of_illegalOp {a : Agent} {c : Command} (hd : decode c = .illegalOp)
    (rest : List Event) : pendingBytes (.operation a c :: rest) = pendingBytes rest := by
  rw [pendingBytes, hd]

/-- R155 for one step, with neither the reset event nor `ACC.CLR` presented. -/
theorem StreamInv.step {sent : List (U16 × Bytes)} {s t : State}
    (hsent : ∀ m ∈ sent, m.2.length ≤ 65530) (hkeeps : ∀ e ∈ s.presented, keepsStream e = true)
    (h : StreamInv hardware sent s (pendingBytes s.presented)) (hstep : step s = .next t) :
    (∀ e ∈ t.presented, keepsStream e = true) ∧
      StreamInv hardware sent t (pendingBytes t.presented) := by
  obtain ⟨-, rfl⟩ | ⟨rest, hp, rfl⟩ | ⟨a, c, rest, i, hp, hd, rfl⟩ | ⟨a, c, rest, hp, hd, rfl⟩ :=
    step_cases hstep
  · exact ⟨hkeeps, h⟩
  · rw [hp] at hkeeps
    cases hkeeps .reset List.mem_cons_self
  · rw [hp] at hkeeps h
    obtain ⟨hevent, hrest⟩ := List.forall_mem_cons.mp hkeeps
    have hi : i ≠ .accClr := by
      rintro rfl
      exact of_decide_eq_true hevent hd
    rw [pendingBytes_of_instr hd] at h
    rw [perform_presented]
    exact ⟨hrest, StreamInv.perform (s := s.taking a rest) hsent hi h⟩
  · rw [hp] at hkeeps h
    rw [pendingBytes_of_illegalOp hd] at h
    exact ⟨(List.forall_mem_cons.mp hkeeps).2, h.of_no_message rfl rfl rfl⟩

/-- Settles O60: on the beginning of a sequence of packets `DEC` delivers the first Message or waits,
a push moves bytes that were still to come, and the other operations touch neither. -/
theorem streamInvariant : Obligations.StreamInvariant :=
  ⟨fun _ _ _ _ _ hmax hsent hi h => h.perform (fun m hm => (hsent m hm).trans hmax) hi,
    fun _ _ _ hsent hkeeps h hstep => h.step hsent hkeeps hstep⟩

/-- Settles O51: counted from the records of this run alone, nothing is delivered at first and every
byte is still to come. -/
theorem deliveredMessagesArePrefixOfSent : Obligations.DeliveredMessagesArePrefixOfSent := by
  intro cfg sent script s hmax hfits hscript hprefix hroom hacc
  let s0 : State := { s with returned := [] }
  have hstart : StreamInv cfg sent s0 (pushedBytes script) :=
    ⟨by simpa [s0, hacc] using hroom, [], sent, rfl, rfl, by simpa [s0, hacc] using hprefix⟩
  have hresults : runResults cfg script s = runResults cfg script s0 :=
    SameBlock.runResults_eq (s := s) (t := s0) ⟨rfl, rfl, rfl⟩ cfg script
  obtain ⟨⟨-, delivered, waiting, rfl, hmsgs, -⟩, hstatus⟩ :=
    hstart.performAll (fun m hm => (hfits m hm).trans hmax) hscript
  have hall : resultsOf (performAll cfg script s0).returned = runResults cfg script s0 :=
    resultsOf_drop_performAll cfg script s0
  rw [resultsOf_drop_performAll, hresults]
  refine ⟨?_, hstatus⟩
  rw [← hall, hmsgs, List.map_append]
  exact List.prefix_append _ _

end Sys2Proof.Safety
end

section
/-! PROOFS. The forms of the accumulator that `DEC` finds: every accumulator has one, and what `DEC`
makes of a frame with a matching trailer (R139 to R149, R171, R178). -/

namespace Sys2Proof.Safety

open Sys2Proof.Machine

/-! Every accumulator has one of the forms. -/

/-- R139: where there is a marker, there is a first one. -/
theorem exists_first_marker {a : Bytes} (h : ¬ NoMarker a) :
    ∃ pre rest, a = pre ++ [0xAB#8, 0xCD#8] ++ rest ∧ NoMarker pre := by
  obtain ⟨p, hp⟩ := Option.ne_none_iff_exists'.mp (mt findMarker_eq_none_iff.mp h)
  obtain ⟨h0, h1⟩ := markerAt_of_findMarker hp
  obtain ⟨hlt0, hget0⟩ := List.getElem?_eq_some_iff.mp h0
  obtain ⟨hlt1, hget1⟩ := List.getElem?_eq_some_iff.mp h1
  refine ⟨a.take p, a.drop (p + 2), ?_, ?_⟩
  · have hmarker : a.drop p = [0xAB#8, 0xCD#8] ++ a.drop (p + 2) := by
      rw [List.drop_eq_getElem_cons hlt0, List.drop_eq_getElem_cons hlt1, hget0, hget1]
      rfl
    rw [List.append_assoc, ← hmarker, List.take_append_drop]
  · refine NoMarker.of_findMarker_append (b := a.drop p) (p := p) ?_ ?_
    · rwa [List.take_append_drop]
    · rw [List.length_take]
      omega

/-- R145: a region of `n + 2` bytes, two bytes of trailer, and the rest. -/
theorem exists_region_trailer {l : Bytes} {n : Nat} (h : n + 4 ≤ l.length) :
    ∃ region t0 t1 post, l = region ++ [t0, t1] ++ post ∧ region.length = n + 2 := by
  obtain ⟨t0, t1, htrailer⟩ : ∃ t0 t1, (l.drop (n + 2)).take 2 = [t0, t1] :=
    List.length_eq_two.mp (by rw [List.length_take, List.length_drop]; omega)
  refine ⟨l.take (n + 2), t0, t1, (l.drop (n + 2)).drop 2, ?_, ?_⟩
  · rw [← htrailer, List.append_assoc, List.take_append_drop, List.take_append_drop]
  · rw [List.length_take]
    omega

/-- R142: the length field is written back as it was read. -/
theorem bytesLe16_le16_toNat (l0 l1 : Byte) :
    bytesLe16 (BitVec.ofNat 16 (le16 l0 l1).toNat) = [l0, l1] := by
  rw [BitVec.ofNat_toNat, BitVec.setWidth_eq, bytesLe16, lo_le16, hi_le16]

/-- R141, R143: a marker begins a frame, still incomplete or whole. -/
theorem partialFrameIn_or_frameIn {a pre rest : Bytes} (ha : a = pre ++ [0xAB#8, 0xCD#8] ++ rest)
    (hpre : NoMarker pre) :
    PartialFrameIn a ∨ ∃ msgLen region t0 t1 post, FrameIn a pre msgLen region t0 t1 post := by
  match rest with
  | [] => exact .inl ⟨pre, _, ha, hpre, .inl (by simp)⟩
  | [b] => exact .inl ⟨pre, _, ha, hpre, .inl (by simp)⟩
  | l0 :: l1 :: more =>
    obtain hshort | hlong := Nat.lt_or_ge more.length ((le16 l0 l1).toNat + 4)
    · exact .inl ⟨pre, _, ha, hpre, .inr ⟨l0, l1, more, rfl, hshort⟩⟩
    · obtain ⟨region, t0, t1, post, rfl, hregion⟩ := exists_region_trailer hlong
      refine .inr ⟨(le16 l0 l1).toNat, region, t0, t1, post, ?_, hpre, (le16 l0 l1).isLt, hregion⟩
      rw [ha, bytesLe16_le16_toNat]
      simp only [List.append_assoc, List.cons_append, List.nil_append]

/-- Settles O44: without a marker, behind the first marker an incomplete frame, or a whole one, whose
region `obf` turns into a body and a CRC field of the same length together. -/
theorem decFormsCoverEveryAccumulator : Obligations.DecFormsCoverEveryAccumulator := by
  intro cfg a
  by_cases hnone : NoMarker a
  · exact .inl hnone
  obtain ⟨pre, rest, ha, hpre⟩ := exists_first_marker hnone
  obtain hpartial | ⟨msgLen, region, t0, t1, post, hframe⟩ := partialFrameIn_or_frameIn ha hpre
  · exact .inr (.inl hpartial)
  · obtain ⟨body, c, hregion, hbody⟩ := exists_body_crcField ((length_obf cfg region).trans hframe.size)
    exact .inr (.inr ⟨pre, msgLen, region, t0, t1, post, hframe, body, c, hbody, hregion⟩)

/-! A frame whose trailer matches. -/

section
variable {a pre region post : Bytes} {msgLen : Nat}

/-- R146. -/
theorem FrameIn.parse_corruptShort (h : FrameIn a pre msgLen region TRL0 TRL1 post)
    (hshort : msgLen < 4) (cfg : Config) :
    parse cfg a = (Result.failed .corruptShort, resync a pre.length) := by
  rw [h.parse_eq_openFrame, openFrame, h.msgLenAt_eq, if_pos hshort]

/-- R148, with the fields of the body written out. -/
theorem FrameIn.parse_fields {cfg : Config} {raw : Bytes} {type declaredLen c : U16}
    (h : FrameIn a pre msgLen region TRL0 TRL1 post)
    (hregion : obf cfg region = bytesLe16 type ++ bytesLe16 declaredLen ++ raw ++ bytesLe16 c)
    (hcrc : cfg.crcCheck = true → crc16 (bytesLe16 type ++ bytesLe16 declaredLen ++ raw) = c) :
    parse cfg a = (Result.okValue (.message
      { type, declaredLen, raw, payload := raw.take (min declaredLen.toNat raw.length) }), post) := by
  have h4 : 4 ≤ msgLen := by
    have hlen := congrArg List.length hregion
    simp only [length_obf, h.size, List.length_append, length_bytesLe16] at hlen
    omega
  rw [h.parse_intact h4 hregion hcrc, messageOf_fields]

end

/-- Settles O41: the length is looked at before the region. -/
theorem decShortBodyResynchronises : Obligations.DecShortBodyResynchronises := by
  intro s pre region post msgLen h hshort
  rw [exec_dec_of_parse (h.parse_corruptShort hshort hardware), h.resync_eq]
  rfl

/-- Settles O42: this hardware compares the CRC field; a block that does not delivers as if it had
matched. -/
theorem decCrcMismatchResynchronises : Obligations.DecCrcMismatchResynchronises := by
  refine ⟨fun s pre region post body msgLen c h h4 hregion hcrc => ?_,
    fun cfg s pre region post raw type declaredLen c msgLen hcheck h hregion => ?_⟩
  · rw [exec_dec_of_parse (h.parse_corruptCrc h4 rfl hregion hcrc), h.resync_eq]
    rfl
  · exact perform_dec_of_parse (h.parse_fields hregion fun hon => by simp [hcheck] at hon)

/-- Settles O43: the CRC field is the body's CRC, so the check passes. -/
theorem decDeliversIntactFrame : Obligations.DecDeliversIntactFrame :=
  fun _ _ _ _ _ _ _ _ h hregion => exec_dec_of_parse (h.parse_fields hregion fun _ => rfl)

/-! The cause of a `NO_MESSAGE`. -/

theorem length_retained_le_one (a : Bytes) : (retained a).length ≤ 1 := by
  unfold retained
  split <;> simp

/-- R171: of the two ways to a `NO_MESSAGE`, one keeps a byte at most and the other a whole marker. -/
theorem parse_acc_of_noMessage {cfg : Config} {a : Bytes}
    (h : (parse cfg a).1.status = .noMessage) :
    (NoMarker a ∧ (parse cfg a).2.length ≤ 1) ∨
      (¬ NoMarker a ∧ (parse cfg a).2 = a ∧ 2 ≤ a.length) := by
  obtain ⟨hnone, heq⟩ | ⟨p, hp, -, heq⟩ | ⟨p, -, -, -, heq⟩ | ⟨p, -, -, -, heq⟩ := parse_cases cfg a
  · rw [heq]
    exact .inl ⟨findMarker_eq_none_iff.mp hnone, length_retained_le_one a⟩
  · rw [heq]
    have hbound := findMarker_bound hp
    refine .inr ⟨fun hnone => ?_, rfl, by omega⟩
    rw [findMarker_eq_none_iff.mpr hnone] at hp
    cases hp
  · rw [heq] at h
    cases h
  · rw [heq] at h
    obtain ⟨-, heq'⟩ | ⟨-, heq'⟩ | ⟨-, m, heq'⟩ := openFrame_cases cfg a p <;> rw [heq'] at h <;>
      cases h

/-- Settles O45: the record says that `DEC` ended in one of the two ways. -/
theorem noMessageCauseShowsInLength : Obligations.NoMessageCauseShowsInLength := by
  intro s t hexec hret
  rw [exec_eq_next] at hexec
  subst hexec
  have hst : (parse hardware s.acc).1.status = .noMessage := by rw [perform_dec_result hret]
  rw [perform_acc]
  obtain hnone | ⟨hmarker, hsame, hlen⟩ := parse_acc_of_noMessage hst
  · exact .inl hnone
  · exact .inr ⟨hmarker, hsame, hlen.trans_eq (congrArg List.length hsame.symm)⟩

end Sys2Proof.Safety
end

section
/-! PROOFS. What each operation leaves at every index of the accumulator (R40, R47, R48). -/

namespace Sys2Proof.Safety

open Sys2Proof.Machine

/-- R40, R48: `DEC` drops some of the oldest bytes and moves the others down. -/
theorem exists_parse_getElem? (cfg : Config) (a : Bytes) :
    ∃ k, k ≤ a.length ∧ ∀ x, (parse cfg a).2[x]? = a[x + k]? := by
  obtain ⟨dropped, hcut⟩ := parse_suffix cfg a
  refine ⟨dropped.length, ?_, fun x => ?_⟩
  · rw [← hcut, List.length_append]
    omega
  · conv_rhs => rw [← hcut]
    rw [List.getElem?_append_right (by omega), Nat.add_sub_cancel]

/-- Settles O36: each clause is the operation's accumulator, read at an index. -/
theorem accumulatorByteFrame : Obligations.AccumulatorByteFrame := by
  intro cfg s
  refine ⟨fun i hclr hdec hpush x => ?_, fun chunk hfits => ⟨fun x hx => ?_, fun j => ?_⟩,
    fun chunk hfull x => ?_, ?_, fun x => rfl⟩
  · rw [State.readByte, perform_acc]
    cases i with
    | accClr => exact absurd rfl hclr
    | accPush chunk => exact absurd rfl (hpush chunk)
    | dec => exact absurd rfl hdec
    | _ => rfl
  · rw [State.readByte, perform_accPush_acc_of_fits hfits, List.getElem?_append_left hx,
      State.readByte]
  · rw [State.readByte, perform_accPush_acc_of_fits hfits,
      List.getElem?_append_right (Nat.le_add_right _ _), Nat.add_sub_cancel_left]
  · simp [perform_acc, hfull]
  · exact exists_parse_getElem? cfg s.acc

end Sys2Proof.Safety
end

section
/-! PROOFS. Result records: which status and which value an operation returns (R71, R73, R74). -/

namespace Sys2Proof.Safety

open Sys2Proof.Machine

/-- R73: `OK`, or one of the operation's own failures. -/
theorem resultOf_status_cases (cfg : Config) (i : Instr) (s : State) :
    (resultOf cfg i s).status = .ok ∨
    (i = .dec ∧
      (resultOf cfg i s).status ∈ [.noMessage, .framingError, .corruptShort, .corruptCrc]) ∨
    ((∃ type payload, i = .enc type payload) ∧ (resultOf cfg i s).status = .badOperand) ∨
    ((∃ chunk, i = .accPush chunk) ∧ (resultOf cfg i s).status = .accFull) := by
  cases i with
  | enc type payload =>
    obtain ⟨-, h⟩ | ⟨-, h⟩ := serialize_cases cfg type payload
    · exact .inl (congrArg Result.status h)
    · exact .inr (.inr (.inl ⟨⟨type, payload, rfl⟩, congrArg Result.status h⟩))
  | accPush chunk =>
    by_cases hfits : withinCap cfg (s.acc.length + chunk.length) = true
    · exact .inl (congrArg Result.status (if_pos hfits))
    · exact .inr (.inr (.inr ⟨⟨chunk, rfl⟩, congrArg Result.status (if_neg hfits)⟩))
  | dec =>
    obtain ⟨m, h⟩ | ⟨st, h, hst⟩ := parse_record cfg s.acc
    · exact .inl (congrArg Result.status h)
    · exact .inr (.inl ⟨rfl, by simpa [resultOf, h] using hst⟩)
  | _ => exact .inl rfl

/-- R71, R74: a value comes only with `OK`, and then it is of the operation's kind. -/
theorem resultOf_value (cfg : Config) (i : Instr) (s : State) :
    ((resultOf cfg i s).status ≠ .ok → (resultOf cfg i s).value = none) ∧
      ((resultOf cfg i s).status = .ok → valueFits i (resultOf cfg i s).value = true) := by
  cases i with
  | enc type payload =>
    obtain ⟨-, h⟩ | ⟨-, h⟩ := serialize_cases cfg type payload <;> simp [resultOf, h, valueFits]
  | accPush chunk =>
    by_cases hfits : withinCap cfg (s.acc.length + chunk.length) = true <;>
      simp [resultOf, hfits, valueFits]
  | dec =>
    obtain ⟨m, h⟩ | ⟨st, h, hst⟩ := parse_record cfg s.acc
    · simp [resultOf, h, valueFits]
    · refine ⟨fun _ => by rw [resultOf, h]; rfl, fun hok => ?_⟩
      rw [resultOf, h] at hok
      cases hok
      simp at hst
  | _ => simp [resultOf, valueFits]

/-- Settles O11: each operation's own failures have the codes the statement gives it. -/
theorem statusesByOperation : Obligations.StatusesByOperation := by
  refine ⟨by decide, fun cfg i s => ⟨resultOf cfg i s, perform_returned cfg i s, ?_⟩⟩
  obtain hok | ⟨rfl, hdec⟩ | ⟨henc, hbad⟩ | ⟨hpush, hfull⟩ := resultOf_status_cases cfg i s
  · simp [hok, Status.code]
  · have hcodes : ∀ st ∈ [Status.noMessage, .framingError, .corruptShort, .corruptCrc],
        st.code ≠ 5#3 ∧ st.code ≠ 6#3 ∧ st.code ≠ 7#3 := by decide
    obtain ⟨h5, h6, h7⟩ := hcodes _ hdec
    exact ⟨fun _ => rfl, fun h => absurd h h5, fun h => absurd h h6, h7⟩
  · simp [hbad, henc, Status.code]
  · simp [hfull, hpush, Status.code]

/-- Settles O12: `exec` is `perform` for this hardware, which returns one record and leaves what is
presented. -/
theorem everyOperationCompletesWithOneRecord : Obligations.EveryOperationCompletesWithOneRecord := by
  refine ⟨rfl, rfl, fun i s => ⟨perform hardware i s, resultOf hardware i s, exec_eq_perform i s, rfl,
    perform_presented hardware i s, perform_presenter hardware i s, perform_returned hardware i s,
    resultOf_value hardware i s⟩⟩

end Sys2Proof.Safety
end

section
/-! PROOFS. The CRC operations one by one and in a sequence (R93 to R95, R76). -/

namespace Sys2Proof.Machine

/-- R74: the last record of a run is the last operation's. -/
theorem getLast?_returned_performAll_concat (cfg : Config) (is : List Instr) (i : Instr) (s : State) :
    (performAll cfg (is ++ [i]) s).returned.getLast? =
      some (s.presenter, resultOf cfg i (performAll cfg is s)) := by
  rw [performAll_append, performAll, performAll, perform_returned, List.getLast?_concat,
    performAll_presenter]

/-- R94 for every byte of a sequence. -/
theorem performAll_crcUpd (cfg : Config) (b : Bytes) (s : State) :
    performAll cfg (b.map .crcUpd) s = { s with
      crc := b.foldl crc16Step s.crc
      returned := s.returned ++ List.replicate b.length (s.presenter, Result.done) } := by
  induction b generalizing s with
  | nil => rw [List.length_nil, List.replicate_zero, List.append_nil]; rfl
  | cons v b ih =>
    rw [List.map_cons, performAll, ih, List.length_cons, List.replicate_succ]
    simp [perform, afterCrcUpd, State.reply, State.setCrc]

end Sys2Proof.Machine

namespace Sys2Proof.Safety

open Sys2Proof.Machine

/-- Settles O17: `CRC.CLR` puts the register at the value from which `crc16` starts. -/
theorem crcBufComputesCrc : Obligations.CrcBufComputesCrc := by
  intro cfg b s
  rw [crcBuf, performAll, performAll_append, performAll_crcUpd, List.replicate_succ]
  simp [performAll, perform, afterCrcClr, afterCrcRd, State.reply, State.setCrc, crc16, Result.done,
    Result.okValue]

/-- Settles O13: the two records are those of the two operations. -/
theorem crcClrClearsRegister : Obligations.CrcClrClearsRegister :=
  ⟨decodeInvertsEncode .crcClr rfl, fun _ => rfl, fun cfg s => performAll_returned cfg _ s⟩

/-- Settles O14: the word is the encoded one for every byte. -/
theorem crcUpdTakesOneStep : Obligations.CrcUpdTakesOneStep := by
  refine ⟨fun b => ?_, fun _ _ => rfl, crc16Step_zero_zero, by decide, by decide⟩
  exact cwOf_or_setWidth opCrcUpd b ▸ decode_crcUpd b

/-- Settles O15: the example is `CRC.BUF` of the digits. -/
theorem crcRdReturnsRegister : Obligations.CrcRdReturnsRegister := by
  refine ⟨decodeInvertsEncode .crcRd rfl, fun _ => rfl, fun cfg s => ?_⟩
  have hcheck : crc16 [0x31#8, 0x32#8, 0x33#8, 0x34#8, 0x35#8, 0x36#8, 0x37#8, 0x38#8, 0x39#8] =
      0x31C3#16 := by decide +kernel
  rw [← crcBuf, crcBufComputesCrc, List.getLast?_concat, hcheck]

end Sys2Proof.Safety
end

section
/-! PROOFS. The XOR operations one by one (R109 to R111). -/

namespace Sys2Proof.Machine

theorem keyByte_of_lt (cfg : Config) {i : Nat} (h : i < 16) : keyByte cfg i = cfg.key[i] := by
  simp only [keyByte, Nat.mod_eq_of_lt h]

end Sys2Proof.Machine

namespace Sys2Proof.Safety

open Sys2Proof.Machine

/-- Settles O22: the two records are those of the two operations, the second at key index 0. -/
theorem xorClrClearsIndex : Obligations.XorClrClearsIndex :=
  ⟨decodeInvertsEncode .xorClr rfl, fun _ => rfl, fun cfg s => performAll_returned cfg _ s,
    fun cfg _ s => performAll_returned cfg _ s⟩

/-- Settles O23: the word is the encoded one for every byte, and `15 + 1` wraps to 0 in four bits. -/
theorem xorByteUsesIndexAndAdvances : Obligations.XorByteUsesIndexAndAdvances := by
  refine ⟨fun b => ?_, fun b s => ?_, fun cfg b s h => ?_⟩
  · exact cwOf_or_setWidth opXorByte b ▸ decode_xorByte b
  · rw [← keyByte_of_lt hardware s.kidx.isLt]
    rfl
  · rw [perform_kidx, h]
    rfl

/-- Settles O24: `XOR.CLR` and seventeen `XOR.BYTE`s leave the index at `17 mod 16`. -/
theorem xorRdReturnsIndex : Obligations.XorRdReturnsIndex := by
  refine ⟨decodeInvertsEncode .xorRd rfl, fun _ => rfl, fun cfg bs s hlen => ?_⟩
  have hkidx : (performAll cfg (.xorClr :: bs.map .xorByte) s).kidx = 1#4 := by
    rw [performAll, performAll_xorByte_kidx, perform_kidx, hlen]
    rfl
  rw [← List.cons_append, getLast?_returned_performAll_concat, resultOf, hkidx]
  rfl

end Sys2Proof.Safety
end

section
/-! PROOFS. `ENC` and the accumulator operations one by one (R126, R127, R135 to R137). -/

namespace Sys2Proof.Machine

/-- R105: zero bytes show the key. -/
theorem obf_replicate_zero (cfg : Config) {n : Nat} (h : n ≤ 16) :
    obf cfg (List.replicate n 0x00#8) = cfg.key.toList.take n := by
  apply List.ext_getElem?
  intro k
  rw [obf, getElem?_obfFrom, List.getElem?_replicate]
  by_cases hk : k < n
  · have hk16 : k < 16 := Nat.lt_of_lt_of_le hk h
    simp [hk, keyByte_of_lt cfg hk16, hk16]
  · simp [hk]

theorem serialize_of_le {cfg : Config} {type : U16} {payload : Bytes}
    (h : payload.length ≤ cfg.maxPayload) :
    serialize cfg type payload = Result.okValue (.packet (packetOf cfg type payload)) :=
  if_neg (Nat.not_lt.mpr h)

theorem perform_accPush_of_full {cfg : Config} {chunk : Bytes} {s : State}
    (h : withinCap cfg (s.acc.length + chunk.length) = false) :
    perform cfg (.accPush chunk) s = s.raise .accFull :=
  if_neg (by simp [h])

/-- R8: what fits, by the capacity. -/
theorem withinCap_eq_true_iff {cfg : Config} {n : Nat} :
    withinCap cfg n = true ↔ ∀ cap, cfg.accCap = some cap → n ≤ cap := by
  unfold withinCap
  split <;> simp_all

end Sys2Proof.Machine

namespace Sys2Proof.Safety

open Sys2Proof.Machine

/-- Settles O28: the record is `serialize`'s under this hardware's bound; with type 0 and no payload
everything that is obfuscated is zero. -/
theorem encReturnsPacket : Obligations.EncReturnsPacket := by
  refine ⟨fun type payload h => decode_enc type h, fun type payload s h => ?_,
    fun type payload s h => ?_, fun cfg => ?_, by decide +kernel⟩
  · rw [exec_eq_perform, perform, afterEnc, serialize_of_le h]
    rfl
  · have hbad : serialize hardware type payload = Result.failed .badOperand := if_pos h
    rw [exec_eq_perform, perform, afterEnc, hbad]
    rfl
  · have hregion : bodyOf 0x0000#16 [] ++ bytesLe16 (crc16 (bodyOf 0x0000#16 [])) =
        List.replicate 6 0x00#8 := by decide +kernel
    rw [serialize_of_le (Nat.zero_le _), packetOf, regionOf, hregion,
      obf_replicate_zero cfg (by decide)]
    rfl

/-- Settles O32: `ACC.LEN` comes last and finds the accumulator empty, whether or not the
push fitted. -/
theorem accClrEmptiesAccumulator : Obligations.AccClrEmptiesAccumulator :=
  ⟨decodeInvertsEncode .accClr rfl, fun _ => rfl, fun cfg chunk s =>
    getLast?_returned_performAll_concat cfg [.accPush chunk, .accClr] .accLen s⟩

/-- Settles O33: the capacity test decides between the two ends of a push. -/
theorem accPushAppendsWholeChunkOrNothing : Obligations.AccPushAppendsWholeChunkOrNothing := by
  refine ⟨fun chunk h => decode_accPush h, fun chunk s h => ?_, fun cfg chunk s h => ?_,
    fun cfg cap chunk s hcap h => ?_⟩
  · rw [exec_eq_perform, perform_accPush_of_fits h]
    rfl
  · exact perform_accPush_of_fits (withinCap_eq_true_iff.mpr h)
  · refine perform_accPush_of_full (Bool.eq_false_iff.mpr fun hfits => ?_)
    exact Nat.not_lt.mpr (withinCap_eq_true_iff.mp hfits cap hcap) h

/-- Settles O35: the bound on the number returned is the invariant of the capacity. -/
theorem accLenReturnsLength : Obligations.AccLenReturnsLength := by
  refine ⟨decodeInvertsEncode .accLen rfl, fun _ => rfl, fun cfg s cap n h hcap hret => ?_⟩
  obtain rfl : s.acc.length = n := by
    simpa [resultOf, Result.okValue] using resultOf_eq_of_returned hret
  exact withinCap_eq_true_iff.mp h cap hcap

end Sys2Proof.Safety
end

section
/-! PROOFS. `crc16` as the remainder of a polynomial division over GF(2) (R92). -/

namespace Sys2Proof.Machine

open Polynomial

/-- R92: a word as a polynomial, bit `j` the coefficient of `x^j`. -/
noncomputable def bitPoly {w : Nat} (v : BitVec w) : (ZMod 2)[X] :=
  ∑ j ∈ Finset.range w, if v.getLsbD j then X ^ j else 0

/-- R92: the polynomial `M(x)` of a byte sequence, first byte and bit 7 first. -/
noncomputable def bytesPoly (s : Bytes) : (ZMod 2)[X] :=
  ∑ i ∈ Finset.range s.length, ∑ k ∈ Finset.range 8,
    if (byteAt s i).getLsbD (7 - k) then X ^ (8 * s.length - 1 - 8 * i - k) else 0

/-- R92: the generator with its leading coefficient, which `crcPoly` leaves out. -/
noncomputable def generatorPoly : (ZMod 2)[X] := X ^ 16 + X ^ 12 + X ^ 5 + 1

/-! Words. -/

theorem bitPoly_xor {w : Nat} (c d : BitVec w) : bitPoly (c ^^^ d) = bitPoly c + bitPoly d := by
  rw [bitPoly, bitPoly, bitPoly, ← Finset.sum_add_distrib]
  refine Finset.sum_congr rfl fun j _ => ?_
  rw [BitVec.getLsbD_xor]
  cases c.getLsbD j <;> cases d.getLsbD j <;> simp [CharTwo.add_self_eq_zero]

/-- The shift drops bit 15. -/
theorem bitPoly_shiftLeft_one (c : U16) :
    bitPoly (c <<< 1) + (if c.getLsbD 15 then X ^ 16 else 0) = X * bitPoly c := by
  have hbit0 : (c <<< 1).getLsbD 0 = false := by simp
  have hbit : ∀ j ∈ Finset.range 15, (c <<< 1).getLsbD (j + 1) = c.getLsbD j := by
    intro j hj
    have hj := Finset.mem_range.mp hj
    simp [show j + 1 < 16 by omega, BitVec.getLsbD_eq_getElem (show j < 16 by omega)]
  have hlow : bitPoly (c <<< 1) =
      ∑ j ∈ Finset.range 15, X * (if c.getLsbD j then X ^ j else 0) := by
    rw [bitPoly, Finset.sum_range_succ', hbit0, if_neg Bool.false_ne_true, add_zero]
    refine Finset.sum_congr rfl fun j hj => ?_
    rw [hbit j hj, mul_ite, mul_zero, pow_succ']
  have hhigh : (if c.getLsbD 15 then X ^ 16 else 0 : (ZMod 2)[X]) =
      X * (if c.getLsbD 15 then X ^ 15 else 0) := by
    rw [mul_ite, mul_zero, ← pow_succ']
  rw [hlow, hhigh, bitPoly, Finset.mul_sum, ← Finset.sum_range_succ]

theorem bitPoly_setWidth_shiftLeft_eight (b : Byte) :
    bitPoly (b.setWidth 16 <<< 8) = X ^ 8 * bitPoly b := by
  have hlow : ∀ j ∈ Finset.range 8,
      (if (b.setWidth 16 <<< 8).getLsbD j then X ^ j else 0 : (ZMod 2)[X]) = 0 := by
    intro j hj
    simp [Finset.mem_range.mp hj]
  have hhigh : ∀ j ∈ Finset.range 8,
      (if (b.setWidth 16 <<< 8).getLsbD (8 + j) then X ^ (8 + j) else 0 : (ZMod 2)[X]) =
        X ^ 8 * (if b.getLsbD j then X ^ j else 0) := by
    intro j hj
    have hj8 := Finset.mem_range.mp hj
    simp [hj8, show 8 + j < 16 by omega, pow_add]
  rw [bitPoly, Finset.sum_range_add _ 8 8, Finset.sum_eq_zero hlow, zero_add,
    Finset.sum_congr rfl hhigh, ← Finset.mul_sum, bitPoly]

theorem degree_bitPoly_lt {w : Nat} (v : BitVec w) : (bitPoly v).degree < w := by
  rw [degree_lt_iff_coeff_zero]
  intro n hn
  rw [bitPoly, finsetSum_coeff]
  refine Finset.sum_eq_zero fun j hj => ?_
  have hne : n ≠ j := by have := Finset.mem_range.mp hj; omega
  split <;> simp [coeff_X_pow, hne]

/-! Sequences. -/

theorem bytesPoly_concat (s : Bytes) (b : Byte) :
    bytesPoly (s ++ [b]) = bytesPoly s * X ^ 8 + bitPoly b := by
  rw [bytesPoly, List.length_append, List.length_singleton, Finset.sum_range_succ, bytesPoly,
    Finset.sum_mul]
  refine congrArg₂ (· + ·) ?_ ?_
  · refine Finset.sum_congr rfl fun i hi => ?_
    have hi := Finset.mem_range.mp hi
    rw [byteAt_append_left s [b] i hi, Finset.sum_mul]
    refine Finset.sum_congr rfl fun k hk => ?_
    have hk := Finset.mem_range.mp hk
    have hexp : 8 * (s.length + 1) - 1 - 8 * i - k = 8 * s.length - 1 - 8 * i - k + 8 := by omega
    rw [ite_mul, zero_mul, ← pow_add, hexp]
  · have hlast : byteAt (s ++ [b]) s.length = b := byteAt_append_right s [b] 0
    rw [hlast, bitPoly, ← Finset.sum_range_reflect]
    refine Finset.sum_congr rfl fun k hk => ?_
    have hk := Finset.mem_range.mp hk
    have hbit : 7 - (8 - 1 - k) = k := by omega
    have hexp : 8 * (s.length + 1) - 1 - 8 * s.length - (8 - 1 - k) = k := by omega
    rw [hbit, hexp]

/-! Modulo the generator. -/

theorem monic_generatorPoly : generatorPoly.Monic := by
  unfold generatorPoly
  monicity!

theorem degree_generatorPoly : generatorPoly.degree = 16 := by
  unfold generatorPoly
  compute_degree!

theorem bitPoly_crcPoly_add : bitPoly crcPoly + X ^ 16 = generatorPoly := by
  have hbits : bitPoly crcPoly = X ^ 12 + X ^ 5 + 1 := by
    simp [bitPoly, Finset.sum_range_succ, crcPoly]
    ring
  rw [hbits, generatorPoly]
  ring

/-- R90: the bit shifted out is `x^16`, and the rest of the generator is added for it. -/
theorem mk_bitPoly_crcShift (c : U16) :
    AdjoinRoot.mk generatorPoly (bitPoly (crcShift c)) =
      AdjoinRoot.mk generatorPoly (X * bitPoly c) := by
  rw [← bitPoly_shiftLeft_one, AdjoinRoot.mk_eq_mk]
  cases h : c.getLsbD 15 with
  | false => simp [crcShift_of_bit15_false h]
  | true =>
    refine dvd_of_eq ?_
    rw [crcShift_of_bit15_true h, bitPoly_xor, if_pos rfl, add_sub_add_left_eq_sub,
      CharTwo.sub_eq_add, bitPoly_crcPoly_add]

theorem mk_bitPoly_crcShifts (n : Nat) (c : U16) :
    AdjoinRoot.mk generatorPoly (bitPoly (crcShifts n c)) =
      AdjoinRoot.mk generatorPoly (X ^ n * bitPoly c) := by
  induction n generalizing c with
  | zero => rw [pow_zero, one_mul, crcShifts]
  | succ n ih => rw [crcShifts, ih, map_mul, mk_bitPoly_crcShift, ← map_mul, ← mul_assoc, pow_succ]

/-- R90: one byte moves the polynomial up by eight and comes in below. -/
theorem mk_bitPoly_crc16Step (c : U16) (b : Byte) :
    AdjoinRoot.mk generatorPoly (bitPoly (crc16Step c b)) =
      AdjoinRoot.mk generatorPoly (bitPoly c * X ^ 8 + bitPoly b * X ^ 16) := by
  rw [crc16Step, mk_bitPoly_crcShifts, bitPoly_xor, bitPoly_setWidth_shiftLeft_eight]
  congr 1
  ring

theorem mk_bitPoly_crc16 (s : Bytes) :
    AdjoinRoot.mk generatorPoly (bitPoly (crc16 s)) =
      AdjoinRoot.mk generatorPoly (bytesPoly s * X ^ 16) := by
  induction s using List.reverseRecOn with
  | nil => simp [bitPoly, bytesPoly]
  | append_singleton s b ih =>
    rw [crc16_append, List.foldl_cons, List.foldl_nil, mk_bitPoly_crc16Step, map_add, map_mul, ih,
      bytesPoly_concat, ← map_mul, ← map_add]
    congr 1
    ring

end Sys2Proof.Machine

namespace Sys2Proof.Safety

open Sys2Proof.Machine

/-- Settles O21: the register is congruent to the dividend, and its degree is below the divisor's. -/
theorem crcIsPolynomialRemainder : Obligations.CrcIsPolynomialRemainder := by
  intro s
  change bitPoly (crc16 s) = bytesPoly s * Polynomial.X ^ 16 %ₘ generatorPoly
  have hdvd := AdjoinRoot.mk_eq_mk.mp (mk_bitPoly_crc16 s)
  rw [← Polynomial.modByMonic_eq_of_dvd_sub monic_generatorPoly hdvd, eq_comm,
    Polynomial.modByMonic_eq_self_iff monic_generatorPoly, degree_generatorPoly]
  exact degree_bitPoly_lt (crc16 s)

end Sys2Proof.Safety
end
